-- ==== Sys2Proof/Word.lean ====
section
/-! DEFINITION. The value types of CA-8. 00_scope.md R7 makes every value a mathematical integer, so registers, the
program counter, memory cells and operands are of type Int; a program image is made of bytes (30_encoding.md R81). -/

namespace Sys2Proof

/-- One byte of a program image (30_encoding.md R81). -/
abbrev Byte := BitVec 8

/-- The value a cell holds once a program-file byte is loaded: unsigned, `0 .. 255` (30_encoding.md R76, D20). -/
def Byte.value (b : Byte) : Int := (b.toNat : Int)

end Sys2Proof
end

