-- ==== Sys2Proof/Config.lean ====
section
/-! DEFINITION. The five model parameters of 00_scope.md R6 and the constants of R5. The parameters are plain
data carried by the state (log entry 1), so that every setting the spec allows is one and the same model. -/

namespace Sys2Proof

/-- `ARITH` (R6, R10): whether values are masked to 8 bits. -/
inductive Arith where
  | reference
  | wrap8
  deriving DecidableEq, Repr

/-- `ADDR` (R6, R11): what an address outside `0 .. 255` does under `ARITH = reference`. -/
inductive AddrMode where
  | fault
  | wrap
  deriving DecidableEq, Repr

/-- `LOOKAHEAD` (R6, 40_fetch_decode_execute.md R101): when the candidate operands are read. -/
inductive Lookahead where
  | strict
  | lazy
  deriving DecidableEq, Repr

/-- `FLAGS_UNSET` (R6, 10_state.md R31): what JEQ and JNE do before the first CMP. -/
inductive FlagsUnset where
  | notEqual
  | fault
  deriving DecidableEq, Repr

/-- The parameters a model of CA-CORE takes (R6). `unlisted` is the set `UNLISTED`, written as a strictly rising
list (log entry 10). -/
structure Params where
  arith      : Arith
  addr       : AddrMode
  lookahead  : Lookahead
  flagsUnset : FlagsUnset
  unlisted   : List Byte
  deriving DecidableEq, Repr

/-- The defaults R6 decides for the hardware. -/
def Params.default : Params :=
  { arith := .reference, addr := .fault, lookahead := .strict, flagsUnset := .notEqual, unlisted := [] }

/-- `MEMSIZE` (R5). -/
abbrev memSize : Nat := 256

/-- `SP_INDEX` (R5). -/
abbrev spIndex : Fin 8 := 7

/-- `SP_START` (R5). -/
abbrev spStart : Int := 0xF4

end Sys2Proof
end

