-- ==== Sys2Proof/Syntax.lean ====
section
/-! DEFINITION. The instructions of CA-8 (30_encoding.md R71, R72): one constructor per row of the opcode table. -/

namespace Sys2Proof

/-- A candidate operand (40_fetch_decode_execute.md R100): the value of its cell, or, under `LOOKAHEAD = lazy`
only, the out-of-range address at which it would have to be read when the handler references it (R101; log entry 5). -/
inductive Operand where
  | cell (v : Int)
  | absent (address : Int)
  deriving DecidableEq, Repr

/-- The four formats of 30_encoding.md R71. -/
inductive Format where
  | n
  | r
  | ri
  | rr
  deriving DecidableEq, Repr

/-- The 13 mnemonics of 30_encoding.md R72, in the table's order. -/
inductive Mnemonic where
  | hlt | ldi | prn | add | mul | push | pop | call | ret | cmp | jmp | jeq | jne
  deriving DecidableEq, Repr

/-- The instructions. `a` and `b` are register operands, `imm` is LDI's immediate; a register operand is the
whole operand byte, in range or not (30_encoding.md R75). -/
inductive Instr where
  | hlt
  | ldi (a imm : Operand)
  | prn (a : Operand)
  | add (a b : Operand)
  | mul (a b : Operand)
  | push (a : Operand)
  | pop (a : Operand)
  | call (a : Operand)
  | ret
  | cmp (a b : Operand)
  | jmp (a : Operand)
  | jeq (a : Operand)
  | jne (a : Operand)
  deriving DecidableEq, Repr

/-- The instruction's row of the opcode table. -/
def Instr.mnemonic : Instr → Mnemonic
  | .hlt => .hlt
  | .ldi _ _ => .ldi
  | .prn _ => .prn
  | .add _ _ => .add
  | .mul _ _ => .mul
  | .push _ => .push
  | .pop _ => .pop
  | .call _ => .call
  | .ret => .ret
  | .cmp _ _ => .cmp
  | .jmp _ => .jmp
  | .jeq _ => .jeq
  | .jne _ => .jne

end Sys2Proof
end

