-- ==== Sys2Proof/WellFormed.lean ====
section
/-! DEFINITION. Which instruction terms a program can spell: 30_encoding.md R80 (registers R0 to R7, `imm` in
`0 .. 255`). The machine does not check this; it also gives every other operand its behaviour. -/

namespace Sys2Proof

/-- A register operand R0 to R7 (30_encoding.md R80, R84). -/
def Operand.isRegister : Operand → Bool
  | .cell v => decide (0 ≤ v ∧ v ≤ 7)
  | .absent _ => false

/-- An immediate byte `0 .. 255` (30_encoding.md R80). -/
def Operand.isByte : Operand → Bool
  | .cell v => decide (0 ≤ v ∧ v ≤ 255)
  | .absent _ => false

/-- The instructions the assembler syntax of 30_encoding.md R80 can write. -/
def Instr.wellFormed : Instr → Bool
  | .hlt => true
  | .ret => true
  | .ldi a imm => a.isRegister && imm.isByte
  | .add a b => a.isRegister && b.isRegister
  | .mul a b => a.isRegister && b.isRegister
  | .cmp a b => a.isRegister && b.isRegister
  | .prn a => a.isRegister
  | .push a => a.isRegister
  | .pop a => a.isRegister
  | .call a => a.isRegister
  | .jmp a => a.isRegister
  | .jeq a => a.isRegister
  | .jne a => a.isRegister

end Sys2Proof
end

