-- ==== Sys2Proof/Decode.lean ====
section
/-! DEFINITION. Decoding and encoding, from the opcode table of 30_encoding.md R72 (formats: R71, lengths: R79).
`dispatch` is step 2 of the cycle (40_fetch_decode_execute.md R102); `decode` reads an instruction from a list of
cell values; `encode` writes the bytes of an instruction. -/

namespace Sys2Proof

/-- The opcode column of R72. -/
def Mnemonic.opcode : Mnemonic → Byte
  | .hlt  => 0b00000001
  | .ldi  => 0b10000010
  | .prn  => 0b01000111
  | .add  => 0b10100000
  | .mul  => 0b10100010
  | .push => 0b01000101
  | .pop  => 0b01000110
  | .call => 0b01010000
  | .ret  => 0b00010001
  | .cmp  => 0b10100111
  | .jmp  => 0b01010100
  | .jeq  => 0b01010101
  | .jne  => 0b01010110

/-- The format column of R72. -/
def Mnemonic.format : Mnemonic → Format
  | .hlt | .ret => .n
  | .prn | .push | .pop | .call | .jmp | .jeq | .jne => .r
  | .ldi => .ri
  | .add | .mul | .cmp => .rr

/-- The operand count of a format (R71). -/
def Format.operandCount : Format → Nat
  | .n => 0
  | .r => 1
  | .ri => 2
  | .rr => 2

/-- The length column of R72: the opcode byte and the operand bytes. -/
def Mnemonic.length (m : Mnemonic) : Nat := 1 + m.format.operandCount

/-- The rows of R72, in the table's order. -/
def Mnemonic.all : List Mnemonic :=
  [.hlt, .ldi, .prn, .add, .mul, .push, .pop, .call, .ret, .cmp, .jmp, .jeq, .jne]

/-- The row whose opcode is `op`, if any. The whole value is compared: no mask, no ignored bit, and a value outside
`0 .. 255` equals no row (R73). -/
def Mnemonic.ofOpcode (op : Int) : Option Mnemonic :=
  Mnemonic.all.find? (fun m => m.opcode.value == op)

/-- The instruction of a row, with the candidate operands in the fields its format has (R71). Operands the
format does not have are dropped (R78). -/
def Mnemonic.assemble (m : Mnemonic) (b1 b2 : Operand) : Instr :=
  match m with
  | .hlt => .hlt
  | .ldi => .ldi b1 b2
  | .prn => .prn b1
  | .add => .add b1 b2
  | .mul => .mul b1 b2
  | .push => .push b1
  | .pop => .pop b1
  | .call => .call b1
  | .ret => .ret
  | .cmp => .cmp b1 b2
  | .jmp => .jmp b1
  | .jeq => .jeq b1
  | .jne => .jne b1

/-- Step 2 of the cycle (40_fetch_decode_execute.md R102): the handler and its candidate operands, or `none` for an
unrecognised opcode (30_encoding.md R77). -/
def dispatch (op : Int) (b1 b2 : Operand) : Option Instr :=
  (Mnemonic.ofOpcode op).map (fun m => m.assemble b1 b2)

/-- Why a list of cells holds no instruction at its head. -/
inductive DecodeError where
  /-- The opcode equals no row of 30_encoding.md R72 (R77). Safe: the machine turns it into `UnknownOpcode` or `Refused`. -/
  | unknownOpcode (op : Int)
  /-- The list ends inside the instruction. Safe: only a caller of `decode` can see it, the machine's fetch never does. -/
  | truncated
  deriving DecidableEq, Repr

/-- The `k`-th cell of a list as an operand. -/
def operandAt (cells : List Int) (k : Nat) : Operand := .cell (cells.getD k 0)

/-- The instruction at the head of a list of cell values, and the cells after it (R70, R79). Total: every list gives
an instruction or a named error. -/
def decode : List Int → Except DecodeError (Instr × List Int)
  | [] => .error .truncated
  | op :: rest =>
    match Mnemonic.ofOpcode op with
    | none => .error (.unknownOpcode op)
    | some m =>
      if rest.length < m.format.operandCount then .error .truncated
      else .ok (m.assemble (operandAt rest 0) (operandAt rest 1), rest.drop m.format.operandCount)

/-- An operand as a byte of a program image: its value's low 8 bits, which is the value itself for a byte
(R80). An absent operand has no byte; 0 stands in its place, and no well-formed instruction holds one. -/
def Operand.toByte : Operand → Byte
  | .cell v => BitVec.ofInt 8 v
  | .absent _ => 0

/-- The operand fields of an instruction, in encoding order (R71). -/
def Instr.operands : Instr → List Operand
  | .hlt | .ret => []
  | .ldi a imm => [a, imm]
  | .add a b | .mul a b | .cmp a b => [a, b]
  | .prn a | .push a | .pop a | .call a | .jmp a | .jeq a | .jne a => [a]

/-- The bytes of an instruction, the opcode first (R70, R71, R82). -/
def encode (i : Instr) : List Byte :=
  i.mnemonic.opcode :: i.operands.map Operand.toByte

/-- The three byte values of an instruction word numbered as the opcode table numbers its bits: byte `k` is bits
`8k+7 .. 8k`, and every bit from `nbits` up is 0. -/
def tableCells (nbits w : Nat) : List Int :=
  let v := w % 2 ^ nbits
  [((v % 256 : Nat) : Int), ((v / 256 % 256 : Nat) : Int), ((v / 65536 % 256 : Nat) : Int)]

/-- What the decoder reads from an instruction word numbered as spec/opcode_table.json numbers it (log entry 9). -/
def decodeTableWord (nbits w : Nat) : Option Instr :=
  match decode (tableCells nbits w) with
  | .ok (i, _) => some i
  | .error _ => none

end Sys2Proof
end

