-- ==== Sys2Proof/Machine/Width.lean ====
section
/-! DEFINITION. The width primitives of 00_scope.md R8 and R10. -/

namespace Sys2Proof

/-- `sext_8(u)` for `u` in `0 .. 255` (R8). -/
def sext8 (u : Int) : Int := if u < 128 then u else u - 256

/-- `wr(v)`, applied to every value written to a register (R10). `%` is the Euclidean remainder of R7. -/
def Params.wr (p : Params) (v : Int) : Int :=
  match p.arith with
  | .reference => v
  | .wrap8 => sext8 (v % 256)

/-- `cell(v)`, applied to every value written to memory (R10). -/
def Params.cell (p : Params) (v : Int) : Int :=
  match p.arith with
  | .reference => v
  | .wrap8 => v % 256

/-- `tgt(v)`, applied to every value written to `pc` (R10). -/
def Params.tgt (p : Params) (v : Int) : Int :=
  match p.arith with
  | .reference => v
  | .wrap8 => v % 256

end Sys2Proof
end

