-- ==== Sys2Proof/Machine/State.lean ====
section
/-! DEFINITION. The state of CA-CORE (10_state.md R20) as plain data, its values after reset (R40), and the
reasons a step can stop. -/

namespace Sys2Proof.Machine

/-- `fl` (10_state.md R29): the result of the last CMP, or `none` before the first. -/
inductive Flag where
  | none
  | less
  | greater
  | equal
  deriving DecidableEq, Repr

/-- The operation tag of the ALU contract `apply(operation, a, b)` (41_alu.md R120). `other` stands for any tag the
ALU does not support (R124; log entry 11). -/
inductive AluTag where
  | add
  | mul
  | cmp
  | other (tag : Nat)
  deriving DecidableEq, Repr

/-- A fatal cause with its `info` (60_exceptions.md R172 to R176). -/
inductive Cause where
  | unknownOpcode (op : Int)
  | unsupportedAluOp (tag : AluTag)
  | addressOutOfRange (v : Int)
  | registerIndexOutOfRange (b : Int)
  | flagsUnset
  deriving DecidableEq, Repr

/-- `status` (10_state.md R36). `address` is the address of the instruction that ended the run. -/
inductive Status where
  | running
  | halted
  | faulted (cause : Cause) (address : Int)
  | refused (op : Int) (address : Int)
  deriving DecidableEq, Repr

/-- The 256 cells `M[0..255]` (10_state.md R33): the cells that differ from 0, with strictly rising addresses. A cell
holds an integer, not a byte, because nothing is masked under `ARITH = reference` (20_memory.md R56; log entry 2). -/
abbrev Memory := List (Nat × Int)

/-- What a cell that memory does not list reads as: the reset contents 0 (10_state.md R40). -/
abbrev Memory.unlisted : Int := 0

/-- The machine state (10_state.md R20), and the model parameters it runs under (00_scope.md R6; log entry 1). -/
structure State where
  /-- The model parameters; the model's own field, which no step changes. -/
  params : Params
  /-- `x[0..7]` (R21); `x[7]` is SP (R22). -/
  regs : Vector Int 8
  /-- The program counter (R26). -/
  pc : Int
  /-- The flags (R29). -/
  fl : Flag
  /-- The memory cells (R33). -/
  mem : Memory
  /-- The run status (R36). -/
  status : Status
  /-- The output sequence, oldest first (R37). -/
  out : List Int
  deriving DecidableEq, Repr

/-- Why a step has no next state. -/
inductive Fault where
  /-- Raised by `step` alone, on a state whose status is not `Running`: the run has ended and no cycle is enabled
  (40_fetch_decode_execute.md R100, R107). It carries the status the run ended with. Safe: the machine takes no cycle either. -/
  | runEnded (status : Status)
  deriving DecidableEq, Repr

/-- Why an instruction has no meaning. -/
inductive Refusal where
  /-- Raised only by an arm of `exec` whose instruction has no meaning yet; no arm does now. Safe. The spec's own
  `Refused` outcome (60_exceptions.md R177) is not this: it is a `Status`. -/
  | notModelled (mnemonic : String)
  deriving DecidableEq, Repr

/-- The state after reset under given parameters (10_state.md R40, 70_reset_and_hazards.md R190). -/
def State.resetWith (p : Params) : State :=
  { params := p
    regs := #v[0, 0, 0, 0, 0, 0, 0, p.wr spStart]
    pc := 0
    fl := .none
    mem := []
    status := .running
    out := [] }

/-- The state after reset under the default parameters (00_scope.md R6). -/
def State.reset : State := State.resetWith Params.default

end Sys2Proof.Machine
end

