-- ==== Sys2Proof/Machine/Ops.lean ====
section
/-! DEFINITION. The named operations over registers, memory, `pc`, `out` and `status`; the address primitive; raising
a fatal cause (the one way an exception is taken); the stack helpers. -/

namespace Sys2Proof.Machine

/-! ## Memory -/

/-- `M[a]` (00_scope.md R9); a cell that is not listed holds the reset value 0. -/
def Memory.read : Memory → Nat → Int
  | [], _ => Memory.unlisted
  | (b, v) :: rest, a => if a = b then v else Memory.read rest a

/-- `M[a] <- v` (00_scope.md R9), in canonical form: addresses rise, and a cell set to 0 is not listed. -/
def Memory.write : Memory → Nat → Int → Memory
  | [], a, v => if v = Memory.unlisted then [] else [(a, v)]
  | (b, u) :: rest, a, v =>
    if a < b then (if v = Memory.unlisted then (b, u) :: rest else (a, v) :: (b, u) :: rest)
    else if a = b then (if v = Memory.unlisted then rest else (b, v) :: rest)
    else (b, u) :: Memory.write rest a v

/-- The listed cells have rising addresses from `lo` on, inside `0 .. 255`, and hold no 0. -/
def Memory.wfFrom (lo : Nat) : Memory → Bool
  | [] => true
  | (a, v) :: rest =>
    decide (lo ≤ a) && decide (a < memSize) && decide (v ≠ Memory.unlisted) && Memory.wfFrom (a + 1) rest

/-- The canonical form of memory. -/
def Memory.wf (m : Memory) : Bool := Memory.wfFrom 0 m

/-! ## Address and register-index conversion -/

/-- `A(v)` (00_scope.md R11, 20_memory.md R51). -/
def address (p : Params) (v : Int) : Except Cause Nat :=
  match p.arith with
  | .wrap8 => .ok (v % 256).toNat
  | .reference =>
    if 0 ≤ v ∧ v ≤ 255 then .ok v.toNat
    else
      match p.addr with
      | .wrap => .ok (v % 256).toNat
      | .fault => .error (.addressOutOfRange v)

/-- `Ridx(b)` (00_scope.md R12): the byte is checked, not masked. -/
def registerIndex (b : Int) : Except Cause (Fin 8) :=
  if h : 0 ≤ b ∧ b ≤ 7 then .ok ⟨b.toNat, by omega⟩ else .error (.registerIndexOutOfRange b)

/-! ## State access -/

/-- `x[i]` (R9). No register is hardwired (10_state.md R23). -/
def State.reg (s : State) (i : Fin 8) : Int := s.regs[i]

/-- `x[i] <- wr(v)`: every register write goes through `wr` (10_state.md R21). -/
def State.writeReg (s : State) (i : Fin 8) (v : Int) : State :=
  { s with regs := s.regs.set i (s.params.wr v) }

/-- `SP`, another name for `x[7]` (R9, 10_state.md R22). -/
def State.sp (s : State) : Int := s.reg spIndex

/-- `pc <- tgt(v)`: every `pc` write goes through `tgt` (40_fetch_decode_execute.md R103). -/
def State.writePc (s : State) (v : Int) : State := { s with pc := s.params.tgt v }

/-- Advance `pc` by the instruction's length (40_fetch_decode_execute.md R111). -/
def State.advance (s : State) (len : Nat) : State := s.writePc (s.pc + (len : Int))

/-- `fl <- f`, which only CMP does (10_state.md R30). -/
def State.writeFlag (s : State) (f : Flag) : State := { s with fl := f }

/-- `MemRead(a, 1)` (R9). -/
def State.load (s : State) (a : Nat) : Int := s.mem.read a

/-- `MemWrite(a, 1, cell(v))` (R9; 20_memory.md R56). -/
def State.store (s : State) (a : Nat) (v : Int) : State :=
  { s with mem := s.mem.write a (s.params.cell v) }

/-- `emit(v)`: append to `out` (R9, 43_register_io.md R142). -/
def State.emit (s : State) (v : Int) : State := { s with out := s.out ++ [v] }

/-- `status <- Halted` (44_control_transfer.md R150). -/
def State.halt (s : State) : State := { s with status := .halted }

/-! ## Ending an instruction -/

/-- Taking an exception, as 00_scope.md R13 and 60_exceptions.md R171 describe it: the run status records the cause and
the address of the instruction, and nothing else changes. There is no handler and nothing is saved (R181). -/
def State.raise (s : State) (c : Cause) : State := { s with status := .faulted c s.pc }

/-- The model-only end of a run at an opcode in `UNLISTED` (40_fetch_decode_execute.md R102, 60_exceptions.md R177). -/
def State.refuse (s : State) (op : Int) : State := { s with status := .refused op s.pc }

/-- The end of an instruction (00_scope.md R13, R14): its writes commit together, or, if it raised, none of them does. -/
def State.commit (s : State) (r : Except Cause State) : Host.Outcome State Fault Refusal :=
  match r with
  | .ok t => .next t
  | .error c => .next (s.raise c)

/-! ## The stack helpers -/

/-- `push(v)` (42_stack.md R130): the address is converted before anything is written. -/
def State.pushValue (s : State) (v : Int) : Except Cause State :=
  match address s.params (s.params.wr (s.sp - 1)) with
  | .error c => .error c
  | .ok ad => .ok ((s.writeReg spIndex (s.sp - 1)).store ad v)

/-- `pop()` (42_stack.md R131): the value read, and the state with SP incremented. The cell keeps its value. -/
def State.popValue (s : State) : Except Cause (Int × State) :=
  match address s.params s.sp with
  | .error c => .error c
  | .ok ad => .ok (s.load ad, s.writeReg spIndex (s.sp + 1))

end Sys2Proof.Machine
end

