-- ==== Sys2Proof/Machine/Flags.lean ====
section
/-! DEFINITION. The flags: what CMP computes (41_alu.md R123), what JEQ and JNE test (10_state.md R31,
44_control_transfer.md R160), and the 3-bit form (10_state.md R29). -/

namespace Sys2Proof.Machine

/-- The flag of a comparison of two register values, as signed integers (41_alu.md R123). -/
def compareFlag (x y : Int) : Flag :=
  if x < y then .less else if x > y then .greater else .equal

/-- The check JEQ and JNE make first (44_control_transfer.md R158, R159; 10_state.md R31). -/
def State.flagsCheck (s : State) : Except Cause Unit :=
  match s.fl, s.params.flagsUnset with
  | .none, .fault => .error .flagsUnset
  | _, _ => .ok ()

/-- The 3-bit encoding of `fl`: bit 2 Less, bit 1 Greater, bit 0 Equal (10_state.md R29, D7; log entry 13). No
instruction reads it. -/
def Flag.bits : Flag → BitVec 3
  | .none => 0b000
  | .less => 0b100
  | .greater => 0b010
  | .equal => 0b001

end Sys2Proof.Machine
end

