-- ==== Sys2Proof/Machine/Operands.lean ====
section
/-! DEFINITION. How a handler references its operands (30_encoding.md R75, R76; 40_fetch_decode_execute.md R101). -/

namespace Sys2Proof.Machine

/-- The value of a referenced operand. An absent one is the lazy read at an out-of-range address, which raises at the
first reference (40_fetch_decode_execute.md R101). -/
def operandValue : Operand → Except Cause Int
  | .cell v => .ok v
  | .absent a => .error (.addressOutOfRange a)

/-- A register operand (30_encoding.md R75): read, then checked by `Ridx` (60_exceptions.md R179 step 5). -/
def registerOperand (o : Operand) : Except Cause (Fin 8) :=
  match operandValue o with
  | .error c => .error c
  | .ok b => registerIndex b

end Sys2Proof.Machine
end

