-- ==== Sys2Proof/Machine/Alu.lean ====
section
/-! DEFINITION. The ALU contract and ADD, MUL and CMP (41_alu.md). -/

namespace Sys2Proof.Machine

/-- `apply(operation, reg_a_index, reg_b_index)` (41_alu.md R120): ADD and MUL write `x[a]`, CMP writes `fl`, any other
tag is fatal (R124). -/
def aluApply (op : AluTag) (a b : Fin 8) (s : State) : Except Cause State :=
  match op with
  | .add => .ok (s.writeReg a (s.reg a + s.reg b))
  | .mul => .ok (s.writeReg a (s.reg a * s.reg b))
  | .cmp => .ok (s.writeFlag (compareFlag (s.reg a) (s.reg b)))
  | .other tag => .error (.unsupportedAluOp (.other tag))

/-- The body the three ALU instructions share: `Ridx(b1)`, `Ridx(b2)`, the ALU, `pc <- tgt(p + 3)` (R121 to R123). -/
def aluBody (op : AluTag) (a b : Operand) (s : State) : Except Cause State := do
  let ra ← registerOperand a
  let rb ← registerOperand b
  let t ← aluApply op ra rb s
  return t.advance 3

/-- ADD (41_alu.md R121). -/
def execAdd (a b : Operand) (s : State) : Host.Outcome State Fault Refusal :=
  s.commit (aluBody .add a b s)

/-- MUL (41_alu.md R122). -/
def execMul (a b : Operand) (s : State) : Host.Outcome State Fault Refusal :=
  s.commit (aluBody .mul a b s)

/-- CMP (41_alu.md R123). -/
def execCmp (a b : Operand) (s : State) : Host.Outcome State Fault Refusal :=
  s.commit (aluBody .cmp a b s)

end Sys2Proof.Machine
end

