-- ==== Sys2Proof/Machine/Control.lean ====
section
/-! DEFINITION. HLT, CALL, RET, JMP, JEQ and JNE (44_control_transfer.md). -/

namespace Sys2Proof.Machine

/-- HLT (44_control_transfer.md R150): `pc` and everything but the status keep their values. -/
def execHlt (s : State) : Host.Outcome State Fault Refusal :=
  s.commit (.ok s.halt)

/-- CALL (44_control_transfer.md R151): the target register is read after the push. -/
def execCall (a : Operand) (s : State) : Host.Outcome State Fault Refusal :=
  s.commit do
    let ra ← registerOperand a
    let t ← s.pushValue (s.pc + 2)
    return t.writePc (t.reg ra)

/-- RET (44_control_transfer.md R152). -/
def execRet (s : State) : Host.Outcome State Fault Refusal :=
  s.commit do
    let (v, t) ← s.popValue
    return t.writePc v

/-- The transfer JMP and the taken JEQ and JNE share: `let a <- Ridx(b1)`, `pc <- tgt(x[a])` (R157 to R159). -/
def jumpTo (a : Operand) (s : State) : Except Cause State := do
  let ra ← registerOperand a
  return s.writePc (s.reg ra)

/-- JMP (44_control_transfer.md R157). -/
def execJmp (a : Operand) (s : State) : Host.Outcome State Fault Refusal :=
  s.commit (jumpTo a s)

/-- JEQ (44_control_transfer.md R158): the operand is referenced only when the jump is taken. -/
def execJeq (a : Operand) (s : State) : Host.Outcome State Fault Refusal :=
  s.commit do
    s.flagsCheck
    if s.fl = .equal then jumpTo a s else return s.advance 2

/-- JNE (44_control_transfer.md R159): the operand is referenced only when the jump is taken. -/
def execJne (a : Operand) (s : State) : Host.Outcome State Fault Refusal :=
  s.commit do
    s.flagsCheck
    if s.fl ≠ .equal then jumpTo a s else return s.advance 2

end Sys2Proof.Machine
end

