-- ==== Sys2Proof/Machine/RegisterIo.lean ====
section
/-! DEFINITION. LDI and PRN (43_register_io.md). -/

namespace Sys2Proof.Machine

/-- LDI (43_register_io.md R140): the index is checked, then the immediate is referenced, in the order of the
pseudocode (60_exceptions.md R179; log entry 6). -/
def execLdi (a imm : Operand) (s : State) : Host.Outcome State Fault Refusal :=
  s.commit do
    let ra ← registerOperand a
    let v ← operandValue imm
    return (s.writeReg ra v).advance 3

/-- PRN (43_register_io.md R141). -/
def execPrn (a : Operand) (s : State) : Host.Outcome State Fault Refusal :=
  s.commit do
    let ra ← registerOperand a
    return (s.emit (s.reg ra)).advance 2

end Sys2Proof.Machine
end

