-- ==== Sys2Proof/Machine/Stack.lean ====
section
/-! DEFINITION. PUSH and POP (42_stack.md). -/

namespace Sys2Proof.Machine

/-- PUSH (42_stack.md R132): the register is read before the push changes SP. -/
def execPush (a : Operand) (s : State) : Host.Outcome State Fault Refusal :=
  s.commit do
    let ra ← registerOperand a
    let t ← s.pushValue (s.reg ra)
    return t.advance 2

/-- POP (42_stack.md R133): the register is written after the pop changed SP, so for R7 the popped value wins. -/
def execPop (a : Operand) (s : State) : Host.Outcome State Fault Refusal :=
  s.commit do
    let ra ← registerOperand a
    let (v, t) ← s.popValue
    return (t.writeReg ra v).advance 2

end Sys2Proof.Machine
end

