-- ==== Sys2Proof/Machine/Cycle.lean ====
section
/-! DEFINITION. The fetch-decode-execute cycle (40_fetch_decode_execute.md R100 to R103), and where the next
instruction is fetched from. -/

namespace Sys2Proof.Machine

/-- The read of a candidate operand at `v` (R100, R101). Under `strict` an out-of-range address raises at once; under
`lazy` the operand is marked absent, and raises where a handler references it. Reads have no side effect
(20_memory.md R55), so reading a present operand early changes nothing. -/
def candidate (s : State) (v : Int) : Except Cause Operand :=
  match address s.params v with
  | .ok a => .ok (.cell (s.load a))
  | .error c =>
    match s.params.lookahead with
    | .strict => .error c
    | .lazy => .ok (.absent v)

/-- Step 1 of the cycle (R100): the opcode and the two candidate operands. -/
def fetch (s : State) : Except Cause (Int × Operand × Operand) :=
  match address s.params s.pc with
  | .error c => .error c
  | .ok a =>
    match candidate s (s.pc + 1) with
    | .error c => .error c
    | .ok b1 =>
      match candidate s (s.pc + 2) with
      | .error c => .error c
      | .ok b2 => .ok (s.load a, b1, b2)

/-- Whether an opcode value is in the parameter set `UNLISTED` (00_scope.md R6). -/
def opcodeUnlisted (p : Params) (op : Int) : Bool :=
  p.unlisted.any (fun b => b.value == op)

/-- The `other` branch of step 2 (R102): an unrecognised opcode ends the run as refused or as faulted. -/
def State.unrecognised (s : State) (op : Int) : State :=
  if opcodeUnlisted s.params op then s.refuse op else s.raise (.unknownOpcode op)

/-- One cycle (R100 to R103), enabled only when the status is `Running`. -/
def cycle (s : State) : Host.Outcome State Fault Refusal :=
  match s.status with
  | .running =>
    match fetch s with
    | .error c => .next (s.raise c)
    | .ok (op, b1, b2) =>
      match dispatch op b1 b2 with
      | some i => exec i s
      | none => .next (s.unrecognised op)
  | .halted => .fault (.runEnded .halted)
  | .faulted c at_ => .fault (.runEnded (.faulted c at_))
  | .refused op at_ => .fault (.runEnded (.refused op at_))

/-- Store `v` where the cycle fetches the byte at `v`'s address `x`, or nothing where `A(x)` raises (log entry 8). -/
def State.place (s : State) (x v : Int) : State :=
  match address s.params x with
  | .ok a => s.store a v
  | .error _ => s

/-- `s` with the cells of an instruction word stored at `pc`, `pc+1`, `pc+2`, and the status `Running`, so that the
next cycle fetches and runs it (log entry 7). -/
def State.placeWord (s : State) (nbits w : Nat) : State :=
  let c := tableCells nbits w
  let t := ((s.place s.pc (c.getD 0 0)).place (s.pc + 1) (c.getD 1 0)).place (s.pc + 2) (c.getD 2 0)
  { t with status := .running }

end Sys2Proof.Machine
end

