-- ==== Sys2Proof/Machine/HostInterface.lean ====
section
/-! DEFINITION. What the host does around a run (60_exceptions.md R183): loading a program image
(70_reset_and_hazards.md R192), the text of a PRN line (43_register_io.md R142) and the outcome codes
(60_exceptions.md R178). -/

namespace Sys2Proof.Machine

/-- The load errors of 60_exceptions.md R178 and R188. The core only checks the length of the image; the other three
belong to the host's own reading of arguments and files, which is outside the core (00_scope.md R4). -/
inductive LoadError where
  | wrongArgumentCount
  | fileNotFound
  | malformedLiteral
  | imageTooLong
  deriving DecidableEq, Repr

/-- The codes 16 to 19 of R178. -/
def LoadError.code : LoadError → Nat
  | .wrongArgumentCount => 16
  | .fileNotFound => 17
  | .malformedLiteral => 18
  | .imageTooLong => 19

/-- `M[k], M[k+1], ... <- P` (70_reset_and_hazards.md R192). -/
def Memory.loadFrom (m : Memory) (k : Nat) : List Byte → Memory
  | [] => m
  | b :: rest => Memory.loadFrom (Memory.write m k b.value) (k + 1) rest

/-- Program load (70_reset_and_hazards.md R192): the image goes to addresses `0 .. N-1`, everything else keeps its value;
an image longer than memory is a load error (60_exceptions.md R188). -/
def State.loadImage (s : State) (image : List Byte) : Except LoadError State :=
  if image.length ≤ memSize then .ok { s with mem := Memory.loadFrom s.mem 0 image } else .error .imageTooLong

/-- Reset, load, run start (70_reset_and_hazards.md R194): the state in which the first cycle runs. -/
def startWith (p : Params) (image : List Byte) : Except LoadError State :=
  (State.resetWith p).loadImage image

/-- The code of a cause (60_exceptions.md R172 to R176). -/
def Cause.code : Cause → Nat
  | .unknownOpcode _ => 1
  | .unsupportedAluOp _ => 2
  | .addressOutOfRange _ => 3
  | .registerIndexOutOfRange _ => 4
  | .flagsUnset => 5

/-- The host's exit status at the end of a run (60_exceptions.md R178); none while it runs. -/
def Status.code : Status → Option Nat
  | .running => none
  | .halted => some 0
  | .faulted c _ => some c.code
  | .refused _ _ => some 6

/-- The line the host prints for one integer of `out` (43_register_io.md R142): base 10, a leading minus sign for a
negative value, no padding, one line terminator. -/
def prnLine (v : Int) : String := toString v ++ "\n"

end Sys2Proof.Machine
end

