-- ==== Sys2Proof/Safety.lean ====
section
/-! DEFINITION. The terms the statements use: the invariant of the state, the run, and what it is for an instruction
to end the run with a cause. -/

namespace Sys2Proof.Machine

/-- A list of bytes that rises strictly from `lo` on. -/
def risesFrom (lo : Nat) : List Byte → Bool
  | [] => true
  | b :: rest => decide (lo ≤ b.toNat) && risesFrom (b.toNat + 1) rest

/-- What 00_scope.md R6 asks of the parameters: `UNLISTED` is a set (here a rising list) disjoint from the 13 opcodes. -/
def paramsOk (p : Params) : Bool :=
  risesFrom 0 p.unlisted && p.unlisted.all (fun b => decide (Mnemonic.ofOpcode b.value = none))

/-- The value domains under `ARITH = wrap8` (10_state.md R21, R26, R33). -/
abbrev State.inWrap8Domains (s : State) : Prop :=
  (∀ i : Fin 8, -128 ≤ s.regs[i] ∧ s.regs[i] ≤ 127) ∧ (0 ≤ s.pc ∧ s.pc ≤ 255) ∧ ∀ c ∈ s.mem, 0 ≤ c.2 ∧ c.2 ≤ 255

/-- The invariant of the model: legal parameters, memory in canonical form with addresses `0 .. 255` (20_memory.md R50),
and under `wrap8` every value in its domain. -/
abbrev State.Inv (s : State) : Prop :=
  paramsOk s.params = true ∧ s.mem.wf = true ∧ (s.params.arith = .wrap8 → s.inWrap8Domains)

/-- A register operand byte naming `x[r]` (30_encoding.md R75). -/
abbrev regOp (r : Fin 8) : Operand := .cell (r.val : Int)

/-- An operand value that names no register (00_scope.md R12). -/
abbrev BadIndex (x : Int) : Prop := x < 0 ∨ 7 < x

/-- `s` after its current instruction raised `c`: the status records the cause and the address, nothing else changes
(00_scope.md R13). -/
abbrev State.faultedWith (s : State) (c : Cause) : State := { s with status := .faulted c s.pc }

/-- Executing `i` in `s` ends the run with cause `c` and commits nothing (00_scope.md R13). -/
abbrev Faults (i : Instr) (s : State) (c : Cause) : Prop := exec i s = .next (s.faultedWith c)

/-- How the register operand of a one-operand form faults: an absent operand by its address, a present one by its index. -/
abbrev OperandFaults (form : Operand → Instr) (s : State) : Prop :=
  (∀ v, Faults (form (.absent v)) s (.addressOutOfRange v)) ∧
  (∀ x, BadIndex x → Faults (form (.cell x)) s (.registerIndexOutOfRange x))

/-- How the operands of a two-register form fault: the first operand whatever the second is, then the second. -/
abbrev OperandPairFaults (form : Operand → Operand → Instr) (s : State) : Prop :=
  (∀ o, OperandFaults (fun a => form a o) s) ∧ (∀ r, OperandFaults (fun b => form (regOp r) b) s)

/-- A fetch that raises ends the run with `AddressOutOfRange`, before anything is decoded (60_exceptions.md R179). -/
abbrev FetchFaultsFirst (s : State) : Prop :=
  ∀ c, s.status = .running → fetch s = .error c →
    (∃ v, c = .addressOutOfRange v) ∧ step s = .next (s.faultedWith c)

/-- What a bounded run reports: the end state, or that it has not ended yet (40_fetch_decode_execute.md R108, R109). -/
inductive RunResult where
  | ended (s : State)
  | notYet (s : State)
  deriving DecidableEq, Repr

/-- Up to `n` cycles, while the status is `Running` (40_fetch_decode_execute.md R106). -/
def runFor : Nat → State → RunResult
  | n, s =>
    if s.status = .running then
      match n with
      | 0 => .notYet s
      | k + 1 =>
        match step s with
        | .next t => runFor k t
        | .fault _ => .notYet s
        | .refused _ => .notYet s
    else .ended s

/-- A run that has ended by HLT, with no fault and no refusal (40_fetch_decode_execute.md R109). -/
abbrev HaltsWithin (n : Nat) (s : State) : Prop := ∃ t, runFor n s = .ended t ∧ t.status = .halted

/-! ## Well-formed programs (70_reset_and_hazards.md R195): a premise a claim may take, checked by nothing -/

/-- The register operand fields of an instruction (30_encoding.md R71). -/
def registerFields : Instr → List Operand
  | .ldi a _ => [a]
  | i => i.operands

/-- `R7` is used only as SP (R195): no operand names it, except that LDI may move the stack (R194). -/
def usesSpOnlyAsSp : Instr → Bool
  | .ldi _ _ => true
  | i => (registerFields i).all (fun o => decide (o ≠ regOp spIndex))

/-- The cell an instruction's stack access goes to, if it has one and the address is in range (20_memory.md R50). -/
def stackCell (s : State) : Instr → Option Nat
  | .push _ | .call _ => (address s.params (s.params.wr (s.sp - 1))).toOption
  | .pop _ | .ret => (address s.params s.sp).toOption
  | _ => none

/-- What R195 asks of one cycle of a program of `n` bytes: a recognised opcode, register operands and addresses that raise
nothing, R7 used only as SP, and a stack access outside the program's cells (log entry 14). -/
def CycleWellFormed (n : Nat) (s : State) : Prop :=
  ∃ op b1 b2 i t, fetch s = .ok (op, b1, b2) ∧ dispatch op b1 b2 = some i ∧ exec i s = .next t ∧
    (∀ c p, t.status = .faulted c p → c = .flagsUnset) ∧ usesSpOnlyAsSp i = true ∧
    ∀ a, stackCell s i = some a → n ≤ a

/-- A well-formed program (R195): every cycle of every run of it is well formed. -/
def WellFormedProgram (p : Params) (image : List Byte) : Prop :=
  ∀ s, startWith p image = .ok s → ∀ k t, Host.Core.run core k s = .next t → t.status = .running →
    CycleWellFormed image.length t

end Sys2Proof.Machine
end

