-- ==== Sys2Proof/Certificates/Slice0/Obligations.lean ====
section
/-! DEFINITION. The statements for the provers. A docstring names the rules of spec/ a statement formalises, and, where
it rests on one of the spec's own decisions (spec/92_eei_decisions.md) or on an entry of the assumption log, says so. -/

open Sys2Proof Sys2Proof.Machine

/-! ## The primitives -/

/-- 00_scope.md R10: what is written under each `ARITH`. The `wrap8` clauses are the spec's decision D3. -/
def Obligations.WidthPrimitives : Prop :=
  ∀ (p : Params) (v : Int),
    (p.arith = .reference → p.wr v = v ∧ p.cell v = v ∧ p.tgt v = v) ∧
    (p.arith = .wrap8 →
      (-128 ≤ p.wr v ∧ p.wr v ≤ 127 ∧ p.wr v % 256 = v % 256) ∧
      (0 ≤ p.cell v ∧ p.cell v ≤ 255 ∧ p.cell v % 256 = v % 256) ∧
      (0 ≤ p.tgt v ∧ p.tgt v ≤ 255 ∧ p.tgt v % 256 = v % 256))

/-- 00_scope.md R11, 20_memory.md R51: the address conversion in its four cases. The fault is the spec's decision D4. -/
def Obligations.AddressConversion : Prop :=
  ∀ (p : Params) (v : Int),
    (p.arith = .wrap8 → ∃ a : Nat, address p v = .ok a ∧ (a : Int) = v % 256) ∧
    (p.arith = .reference → 0 ≤ v → v ≤ 255 → ∃ a : Nat, address p v = .ok a ∧ (a : Int) = v) ∧
    (p.arith = .reference → (v < 0 ∨ 255 < v) → p.addr = .wrap → ∃ a : Nat, address p v = .ok a ∧ (a : Int) = v % 256) ∧
    (p.arith = .reference → (v < 0 ∨ 255 < v) → p.addr = .fault → address p v = .error (.addressOutOfRange v))

/-- 00_scope.md R12, 30_encoding.md R75: the register index is the whole byte, checked and not masked. The fault is the
spec's decision D5. -/
def Obligations.RegisterIndexChecked : Prop :=
  (∀ r : Fin 8, registerIndex (r.val : Int) = .ok r) ∧
  (∀ x : Int, BadIndex x → registerIndex x = .error (.registerIndexOutOfRange x))

/-! ## Decoding -/

/-- Words written out bit by bit from 30_encoding.md R72, one of each family, decode to the instruction they stand for. -/
def Obligations.SampleWordsDecode : Prop :=
  decode [0b10000010, 0b00000000, 0b00001000] = .ok (.ldi (.cell 0) (.cell 8), []) ∧
  decode [0b10100000, 0b00000000, 0b00000001] = .ok (.add (.cell 0) (.cell 1), []) ∧
  decode [0b01000101, 0b00000111] = .ok (.push (.cell 7), []) ∧
  decode [0b01010000, 0b00000001] = .ok (.call (.cell 1), []) ∧
  decode [0b00010001] = .ok (.ret, []) ∧
  decode [0b00000001] = .ok (.hlt, []) ∧
  decode [0b10100001, 0, 1] = .error (.unknownOpcode 161)

/-- 30_encoding.md R72 and R73: exactly these 13 opcodes, with their formats and lengths; the whole opcode value is
compared, and any other value, inside `0 .. 255` or not, equals no row. -/
def Obligations.OpcodeTable : Prop :=
  (∀ b1 b2 : Operand,
    dispatch 0x01 b1 b2 = some .hlt ∧ dispatch 0x82 b1 b2 = some (.ldi b1 b2) ∧
    dispatch 0x47 b1 b2 = some (.prn b1) ∧ dispatch 0xA0 b1 b2 = some (.add b1 b2) ∧
    dispatch 0xA2 b1 b2 = some (.mul b1 b2) ∧ dispatch 0x45 b1 b2 = some (.push b1) ∧
    dispatch 0x46 b1 b2 = some (.pop b1) ∧ dispatch 0x50 b1 b2 = some (.call b1) ∧
    dispatch 0x11 b1 b2 = some .ret ∧ dispatch 0xA7 b1 b2 = some (.cmp b1 b2) ∧
    dispatch 0x54 b1 b2 = some (.jmp b1) ∧ dispatch 0x55 b1 b2 = some (.jeq b1) ∧
    dispatch 0x56 b1 b2 = some (.jne b1)) ∧
  (∀ (op : Int) (b1 b2 : Operand), dispatch op b1 b2 = none ↔
    op ∉ ([0x01, 0x82, 0x47, 0xA0, 0xA2, 0x45, 0x46, 0x50, 0x11, 0xA7, 0x54, 0x55, 0x56] : List Int)) ∧
  (∀ m : Mnemonic,
    ((m = .hlt ∨ m = .ret) → m.format = .n ∧ m.length = 1) ∧
    ((m = .prn ∨ m = .push ∨ m = .pop ∨ m = .call ∨ m = .jmp ∨ m = .jeq ∨ m = .jne) → m.format = .r ∧ m.length = 2) ∧
    (m = .ldi → m.format = .ri ∧ m.length = 3) ∧
    ((m = .add ∨ m = .mul ∨ m = .cmp) → m.format = .rr ∧ m.length = 3))

/-- 30_encoding.md R78: the bytes after an N or R instruction have no effect on what is executed, and reading them can
still fault, which it does before anything is decoded. -/
def Obligations.UnusedBytesHaveNoEffect : Prop :=
  (∀ (op : Int) (m : Mnemonic) (b1 b2 c1 c2 : Operand), Mnemonic.ofOpcode op = some m → m.format = .n →
    dispatch op b1 b2 = dispatch op c1 c2) ∧
  (∀ (op : Int) (m : Mnemonic) (b1 b2 c2 : Operand), Mnemonic.ofOpcode op = some m → m.format = .r →
    dispatch op b1 b2 = dispatch op b1 c2) ∧
  (∀ (s : State) (c : Cause), s.status = .running → s.params.lookahead = .strict →
    (∃ a, address s.params s.pc = .ok a) →
    (address s.params (s.pc + 1) = .error c ∨
      (∃ a, address s.params (s.pc + 1) = .ok a) ∧ address s.params (s.pc + 2) = .error c) →
    step s = .next (s.faultedWith c))

/-- Decoding the encoding of any well-formed instruction gives it back, whatever follows it (30_encoding.md R70 to R76). -/
def Obligations.DecodeOfEncode : Prop :=
  ∀ (i : Instr) (rest : List Int), i.wellFormed = true →
    decode ((encode i).map Byte.value ++ rest) = .ok (i, rest)

/-- Encoding what was decoded from program bytes gives those bytes back: no byte of an instruction is dropped, a register
byte outside `0 .. 7` included (30_encoding.md R70, R71, R75). -/
def Obligations.EncodeOfDecode : Prop :=
  ∀ (bytes : List Byte) (i : Instr) (rest : List Int), decode (bytes.map Byte.value) = .ok (i, rest) →
    (encode i).map Byte.value ++ rest = bytes.map Byte.value

/-! ## The cycle -/

/-- 40_fetch_decode_execute.md R100, R102, R103: when the cells at `pc` and after it decode to an instruction, a step is
that instruction's execution in the same state; nothing is added around it. -/
def Obligations.StepRunsDecoded : Prop :=
  (∀ (s : State) (op : Int) (b1 b2 : Operand) (i : Instr), s.status = .running → fetch s = .ok (op, b1, b2) →
    dispatch op b1 b2 = some i → step s = exec i s) ∧
  (∀ (s : State) (a0 a1 a2 : Nat) (i : Instr) (rest : List Int), s.status = .running →
    address s.params s.pc = .ok a0 → address s.params (s.pc + 1) = .ok a1 → address s.params (s.pc + 2) = .ok a2 →
    decode [s.mem.read a0, s.mem.read a1, s.mem.read a2] = .ok (i, rest) → step s = exec i s)

/-- 40_fetch_decode_execute.md R100 and R101, 60_exceptions.md R179 steps 1 and 2: what the fetch reads, and which address
it raises. The two `LOOKAHEAD` settings are the spec's decision D6, the order D14. -/
def Obligations.FetchReadsThreeCells : Prop :=
  ∀ s : State,
    (∀ a0 a1 a2, address s.params s.pc = .ok a0 → address s.params (s.pc + 1) = .ok a1 →
      address s.params (s.pc + 2) = .ok a2 →
      fetch s = .ok (s.mem.read a0, .cell (s.mem.read a1), .cell (s.mem.read a2))) ∧
    (∀ c, address s.params s.pc = .error c → fetch s = .error c) ∧
    (∀ a0 c, s.params.lookahead = .strict → address s.params s.pc = .ok a0 →
      address s.params (s.pc + 1) = .error c → fetch s = .error c) ∧
    (∀ a0 a1 c, s.params.lookahead = .strict → address s.params s.pc = .ok a0 →
      address s.params (s.pc + 1) = .ok a1 → address s.params (s.pc + 2) = .error c → fetch s = .error c) ∧
    (s.params.lookahead = .lazy → (∃ a, address s.params s.pc = .ok a) →
      ∃ b1 b2, fetch s = .ok ((s.mem.read (s.pc % 256).toNat), b1, b2) ∧
        (∀ c, address s.params (s.pc + 1) = .error c → b1 = .absent (s.pc + 1)) ∧
        (∀ a, address s.params (s.pc + 1) = .ok a → b1 = .cell (s.mem.read a)) ∧
        (∀ c, address s.params (s.pc + 2) = .error c → b2 = .absent (s.pc + 2)) ∧
        (∀ a, address s.params (s.pc + 2) = .ok a → b2 = .cell (s.mem.read a)))

/-- 30_encoding.md R77, 60_exceptions.md R172 and R177: an opcode that equals no row ends the run, as refused when it is in
`UNLISTED` (the spec's decision D11), else as `UnknownOpcode`, and changes nothing else. -/
def Obligations.UnrecognisedOpcodeEndsRun : Prop :=
  ∀ (s : State) (op : Int) (b1 b2 : Operand), s.status = .running → fetch s = .ok (op, b1, b2) →
    dispatch op b1 b2 = none →
    ((∃ b ∈ s.params.unlisted, (b.toNat : Int) = op) → step s = .next { s with status := .refused op s.pc }) ∧
    ((∀ b ∈ s.params.unlisted, (b.toNat : Int) ≠ op) → step s = .next (s.faultedWith (.unknownOpcode op)))

/-- 40_fetch_decode_execute.md R107: the only ways the run status changes, and that the three terminal statuses have no
outgoing transition and no cycle. -/
def Obligations.StatusTransitions : Prop :=
  (∀ s t : State, step s = .next t →
    s.status = .running ∧
    (t.status = .running ∨
     (t.status = .halted ∧ ∃ op b1 b2, fetch s = .ok (op, b1, b2) ∧ dispatch op b1 b2 = some .hlt) ∨
     (∃ c, t.status = .faulted c s.pc) ∨
     (∃ op b1 b2, fetch s = .ok (op, b1, b2) ∧ dispatch op b1 b2 = none ∧
       (∃ b ∈ s.params.unlisted, (b.toNat : Int) = op) ∧ t.status = .refused op s.pc))) ∧
  (∀ (s : State) (op : Int) (b1 b2 : Operand), s.status = .running → fetch s = .ok (op, b1, b2) →
    dispatch op b1 b2 = some .hlt → ∃ t, step s = .next t ∧ t.status = .halted) ∧
  (∀ s : State, s.status ≠ .running → step s = .fault (.runEnded s.status))

/-- 00_scope.md R13, 60_exceptions.md R171 and R181: a fault records the cause and the address of the instruction, commits
nothing, and no later instruction executes. Precise faults are the spec's decision D13. -/
def Obligations.FaultCommitsNothing : Prop :=
  ∀ (s t : State) (c : Cause) (p : Int), step s = .next t → t.status = .faulted c p →
    p = s.pc ∧ t = s.faultedWith c ∧ step t = .fault (.runEnded (.faulted c s.pc))

/-- 40_fetch_decode_execute.md R101: the two `LOOKAHEAD` settings differ only in which out-of-range reads fault. Where the
strict fetch does not raise, the lazy machine makes the same step. The parameter is the spec's decision D6. -/
def Obligations.LazyAgreesWhereStrictFetches : Prop :=
  ∀ (s t : State) (x : Int × Operand × Operand), s.params.lookahead = .strict → s.status = .running →
    fetch s = .ok x → step s = .next t →
    step { s with params := { s.params with lookahead := .lazy } } =
      .next { t with params := { t.params with lookahead := .lazy } }

/-- 20_memory.md R60: an instruction fetch sees a store made before it, with nothing in between. -/
def Obligations.FetchSeesEarlierStore : Prop :=
  ∀ (s : State) (a : Nat) (v : Int), s.mem.wf = true → address s.params s.pc = .ok a →
    ∀ op b1 b2, fetch (s.store a v) = .ok (op, b1, b2) → op = s.params.cell v

/-! ## What each instruction does -/

/-- 41_alu.md R121. -/
def Obligations.AddWritesSum : Prop :=
  ∀ s : State,
    (∀ b1 b2, dispatch 0b10100000 b1 b2 = some (.add b1 b2)) ∧
    (∀ ra rb : Fin 8, exec (.add (regOp ra) (regOp rb)) s =
      .next { s with regs := s.regs.set ra (s.params.wr (s.regs[ra] + s.regs[rb])), pc := s.params.tgt (s.pc + 3) }) ∧
    OperandPairFaults .add s ∧ FetchFaultsFirst s

/-- 41_alu.md R122. -/
def Obligations.MulWritesProduct : Prop :=
  ∀ s : State,
    (∀ b1 b2, dispatch 0b10100010 b1 b2 = some (.mul b1 b2)) ∧
    (∀ ra rb : Fin 8, exec (.mul (regOp ra) (regOp rb)) s =
      .next { s with regs := s.regs.set ra (s.params.wr (s.regs[ra] * s.regs[rb])), pc := s.params.tgt (s.pc + 3) }) ∧
    OperandPairFaults .mul s ∧ FetchFaultsFirst s

/-- 41_alu.md R123: exactly one of the three flags, by the signed comparison. The reading under `wrap8` is the spec's
decision D3. -/
def Obligations.CmpSetsExactlyOneFlag : Prop :=
  ∀ s : State,
    (∀ b1 b2, dispatch 0b10100111 b1 b2 = some (.cmp b1 b2)) ∧
    (∀ ra rb : Fin 8, ∃ f : Flag,
      exec (.cmp (regOp ra) (regOp rb)) s = .next { s with fl := f, pc := s.params.tgt (s.pc + 3) } ∧
      (f = .less ↔ s.regs[ra] < s.regs[rb]) ∧ (f = .greater ↔ s.regs[ra] > s.regs[rb]) ∧
      (f = .equal ↔ s.regs[ra] = s.regs[rb]) ∧ f ≠ .none) ∧
    OperandPairFaults .cmp s ∧ FetchFaultsFirst s

/-- 42_stack.md R130: the push helper, the cell it writes read back, and every other cell as before. -/
def Obligations.PushHelper : Prop :=
  ∀ (s : State) (v : Int),
    (∀ ad, address s.params (s.params.wr (s.regs[spIndex] - 1)) = .ok ad →
      ∃ t, s.pushValue v = .ok t ∧
        t = { s with regs := s.regs.set spIndex (s.params.wr (s.regs[spIndex] - 1)), mem := t.mem } ∧
        address t.params t.regs[spIndex] = .ok ad ∧
        (s.mem.wf = true → t.mem.read ad = s.params.cell v) ∧ ∀ x, x ≠ ad → t.mem.read x = s.mem.read x) ∧
    (∀ c, address s.params (s.params.wr (s.regs[spIndex] - 1)) = .error c →
      c = .addressOutOfRange (s.params.wr (s.regs[spIndex] - 1)) ∧ s.pushValue v = .error c)

/-- 42_stack.md R131: the pop helper; the cell read keeps its value. -/
def Obligations.PopHelper : Prop :=
  ∀ s : State,
    (∀ ad, address s.params s.regs[spIndex] = .ok ad →
      s.popValue = .ok (s.mem.read ad, { s with regs := s.regs.set spIndex (s.params.wr (s.regs[spIndex] + 1)) })) ∧
    (∀ c, address s.params s.regs[spIndex] = .error c →
      c = .addressOutOfRange s.regs[spIndex] ∧ s.popValue = .error c)

/-- 42_stack.md R132: the register is read before the push changes SP, so PUSH R7 stores the old SP (the spec's decision
D24); the index is checked before the stack address. -/
def Obligations.PushStoresRegister : Prop :=
  ∀ s : State,
    (∀ b1 b2, dispatch 0b01000101 b1 b2 = some (.push b1)) ∧
    (∀ (r : Fin 8) (ad : Nat), address s.params (s.params.wr (s.regs[spIndex] - 1)) = .ok ad →
      exec (.push (regOp r)) s =
        .next { s with
          regs := s.regs.set spIndex (s.params.wr (s.regs[spIndex] - 1))
          mem := s.mem.write ad (s.params.cell s.regs[r])
          pc := s.params.tgt (s.pc + 2) }) ∧
    (∀ (r : Fin 8) (c : Cause), address s.params (s.params.wr (s.regs[spIndex] - 1)) = .error c →
      Faults (.push (regOp r)) s c) ∧
    OperandFaults .push s ∧ FetchFaultsFirst s

/-- 42_stack.md R133: the popped value is written after SP was incremented, so POP R7 leaves the popped value in SP (the
spec's decision D24). -/
def Obligations.PopWritesRegister : Prop :=
  ∀ s : State,
    (∀ b1 b2, dispatch 0b01000110 b1 b2 = some (.pop b1)) ∧
    (∀ (r : Fin 8) (ad : Nat), address s.params s.regs[spIndex] = .ok ad →
      ∃ t, exec (.pop (regOp r)) s = .next t ∧
        t = { s with regs := t.regs, pc := s.params.tgt (s.pc + 2) } ∧
        t.regs[r] = s.params.wr (s.mem.read ad) ∧
        (r ≠ spIndex → t.regs[spIndex] = s.params.wr (s.regs[spIndex] + 1)) ∧
        ∀ j : Fin 8, j ≠ r → j ≠ spIndex → t.regs[j] = s.regs[j]) ∧
    (∀ (r : Fin 8) (c : Cause), address s.params s.regs[spIndex] = .error c → Faults (.pop (regOp r)) s c) ∧
    OperandFaults .pop s ∧ FetchFaultsFirst s

/-- 43_register_io.md R140, 30_encoding.md R76: the immediate is the value of the cell. That LDI R7 sets SP is the spec's
decision D24; that an absent immediate raises only after the index was checked is the model's reading (log entry 6). -/
def Obligations.LdiLoadsImmediate : Prop :=
  ∀ s : State,
    (∀ b1 b2, dispatch 0b10000010 b1 b2 = some (.ldi b1 b2)) ∧
    (∀ (r : Fin 8) (v : Int), exec (.ldi (regOp r) (.cell v)) s =
      .next { s with regs := s.regs.set r (s.params.wr v), pc := s.params.tgt (s.pc + 3) }) ∧
    (∀ o, OperandFaults (fun a => .ldi a o) s) ∧
    (∀ (r : Fin 8) (v : Int), Faults (.ldi (regOp r) (.absent v)) s (.addressOutOfRange v)) ∧ FetchFaultsFirst s

/-- 43_register_io.md R141: one integer is appended to `out`, no register and no cell is written, and a faulting PRN emits
nothing. -/
def Obligations.PrnEmitsRegister : Prop :=
  ∀ s : State,
    (∀ b1 b2, dispatch 0b01000111 b1 b2 = some (.prn b1)) ∧
    (∀ r : Fin 8, exec (.prn (regOp r)) s =
      .next { s with out := s.out ++ [s.regs[r]], pc := s.params.tgt (s.pc + 2) }) ∧
    OperandFaults .prn s ∧ FetchFaultsFirst s

/-- 44_control_transfer.md R150: only the status changes, and no cycle follows. That `pc` stays is the spec's decision D12. -/
def Obligations.HltStopsTheRun : Prop :=
  ∀ s : State,
    (∀ b1 b2, dispatch 0b00000001 b1 b2 = some .hlt) ∧
    exec .hlt s = .next { s with status := .halted } ∧
    (∀ t, exec .hlt s = .next t → step t = .fault (.runEnded .halted))

/-- 44_control_transfer.md R151: `pc + 2` is pushed, then the target register is read, so CALL R7 jumps to the new SP (the
spec's decision D24). A target out of range does not fault here. -/
def Obligations.CallPushesThenJumps : Prop :=
  ∀ s : State,
    (∀ b1 b2, dispatch 0b01010000 b1 b2 = some (.call b1)) ∧
    (∀ (r : Fin 8) (ad : Nat), address s.params (s.params.wr (s.regs[spIndex] - 1)) = .ok ad →
      exec (.call (regOp r)) s =
        .next { s with
          regs := s.regs.set spIndex (s.params.wr (s.regs[spIndex] - 1))
          mem := s.mem.write ad (s.params.cell (s.pc + 2))
          pc := s.params.tgt (if r = spIndex then s.params.wr (s.regs[spIndex] - 1) else s.regs[r]) }) ∧
    (∀ (r : Fin 8) (c : Cause), address s.params (s.params.wr (s.regs[spIndex] - 1)) = .error c →
      Faults (.call (regOp r)) s c) ∧
    OperandFaults .call s ∧ FetchFaultsFirst s

/-- 44_control_transfer.md R152. -/
def Obligations.RetPopsTarget : Prop :=
  ∀ s : State,
    (∀ b1 b2, dispatch 0b00010001 b1 b2 = some .ret) ∧
    (∀ ad : Nat, address s.params s.regs[spIndex] = .ok ad →
      exec .ret s =
        .next { s with
          regs := s.regs.set spIndex (s.params.wr (s.regs[spIndex] + 1))
          pc := s.params.tgt (s.mem.read ad) }) ∧
    (∀ c, address s.params s.regs[spIndex] = .error c →
      c = .addressOutOfRange s.regs[spIndex] ∧ Faults .ret s c) ∧
    FetchFaultsFirst s

/-- 44_control_transfer.md R157: the target is used as it stands; a target out of range does not fault here. -/
def Obligations.JmpJumpsToRegister : Prop :=
  ∀ s : State,
    (∀ b1 b2, dispatch 0b01010100 b1 b2 = some (.jmp b1)) ∧
    (∀ r : Fin 8, exec (.jmp (regOp r)) s = .next { s with pc := s.params.tgt s.regs[r] }) ∧
    OperandFaults .jmp s ∧ FetchFaultsFirst s

/-- 44_control_transfer.md R158 and R160: taken on `Equal` only; the operand is checked only when the jump is taken. What
`None` does is the parameter `FLAGS_UNSET`, the spec's decision D8. -/
def Obligations.JeqJumpsOnEqual : Prop :=
  ∀ s : State,
    (∀ b1 b2, dispatch 0b01010101 b1 b2 = some (.jeq b1)) ∧
    (s.fl = .equal →
      (∀ r : Fin 8, exec (.jeq (regOp r)) s = .next { s with pc := s.params.tgt s.regs[r] }) ∧ OperandFaults .jeq s) ∧
    ((s.fl = .less ∨ s.fl = .greater ∨ (s.fl = .none ∧ s.params.flagsUnset = .notEqual)) →
      ∀ o, exec (.jeq o) s = .next { s with pc := s.params.tgt (s.pc + 2) }) ∧
    (s.fl = .none → s.params.flagsUnset = .fault → ∀ o, Faults (.jeq o) s .flagsUnset) ∧ FetchFaultsFirst s

/-- 44_control_transfer.md R159 and R160: taken unless `Equal`; the operand is checked only when the jump is taken. What
`None` does is the parameter `FLAGS_UNSET`, the spec's decision D8. -/
def Obligations.JneJumpsUnlessEqual : Prop :=
  ∀ s : State,
    (∀ b1 b2, dispatch 0b01010110 b1 b2 = some (.jne b1)) ∧
    ((s.fl = .less ∨ s.fl = .greater ∨ (s.fl = .none ∧ s.params.flagsUnset = .notEqual)) →
      (∀ r : Fin 8, exec (.jne (regOp r)) s = .next { s with pc := s.params.tgt s.regs[r] }) ∧ OperandFaults .jne s) ∧
    (s.fl = .equal → ∀ o, exec (.jne o) s = .next { s with pc := s.params.tgt (s.pc + 2) }) ∧
    (s.fl = .none → s.params.flagsUnset = .fault → ∀ o, Faults (.jne o) s .flagsUnset) ∧ FetchFaultsFirst s

/-- 41_alu.md R125: sums and products are exact under `reference`; under `wrap8` the result is the signed byte with the
same low 8 bits, and no flag tells. -/
def Obligations.ArithmeticWidth : Prop :=
  ∀ (s t : State) (ra rb : Fin 8) (full : Int),
    (exec (.add (regOp ra) (regOp rb)) s = .next t ∧ full = s.regs[ra] + s.regs[rb] ∨
     exec (.mul (regOp ra) (regOp rb)) s = .next t ∧ full = s.regs[ra] * s.regs[rb]) →
    (s.params.arith = .reference → t.regs[ra] = full) ∧
    (s.params.arith = .wrap8 →
      -128 ≤ t.regs[ra] ∧ t.regs[ra] ≤ 127 ∧ t.regs[ra] % 256 = full % 256) ∧
    t.fl = s.fl

/-! ## Frames -/

/-- ADD, MUL and LDI leave everything but their destination register, `pc` and the status of a fault unchanged. -/
def Obligations.RegisterResultFrame : Prop :=
  ∀ (s t : State) (a b : Operand),
    (exec (.add a b) s = .next t ∨ exec (.mul a b) s = .next t ∨ exec (.ldi a b) s = .next t) →
    (∀ j : Fin 8, a ≠ regOp j → t.regs[j] = s.regs[j]) ∧
    t.params = s.params ∧ t.fl = s.fl ∧ t.out = s.out ∧
    (t.status = s.status ∨ ∃ c, t.status = .faulted c s.pc) ∧
    ∀ x, t.mem.read x = s.mem.read x

/-- CMP, PRN, HLT, JMP, JEQ and JNE write no register and no memory cell; CMP alone of them writes `fl`, PRN alone `out`,
HLT alone ends the run without a fault. -/
def Obligations.NoRegisterResultFrame : Prop :=
  ∀ (s t : State) (i : Instr),
    ((∃ a b, i = .cmp a b) ∨ (∃ a, i = .prn a ∨ i = .jmp a ∨ i = .jeq a ∨ i = .jne a) ∨ i = .hlt) →
    exec i s = .next t →
    (∀ j : Fin 8, t.regs[j] = s.regs[j]) ∧ t.params = s.params ∧
    ((∀ a b, i ≠ .cmp a b) → t.fl = s.fl) ∧ ((∀ a, i ≠ .prn a) → t.out = s.out) ∧
    (i ≠ .hlt → t.status = s.status ∨ ∃ c, t.status = .faulted c s.pc) ∧
    ∀ x, t.mem.read x = s.mem.read x

/-- POP and RET write SP, and POP its destination register; nothing in memory changes. -/
def Obligations.PoppingFrame : Prop :=
  ∀ (s t : State),
    (∀ a, exec (.pop a) s = .next t → ∀ j : Fin 8, a ≠ regOp j → j ≠ spIndex → t.regs[j] = s.regs[j]) ∧
    (exec .ret s = .next t → ∀ j : Fin 8, j ≠ spIndex → t.regs[j] = s.regs[j]) ∧
    (((∃ a, exec (.pop a) s = .next t) ∨ exec .ret s = .next t) →
      t.params = s.params ∧ t.fl = s.fl ∧ t.out = s.out ∧
      (t.status = s.status ∨ ∃ c, t.status = .faulted c s.pc) ∧
      ∀ x, t.mem.read x = s.mem.read x)

/-- PUSH and CALL write SP and the one cell at `A(wr(SP - 1))`; where that address raises, no cell changes. -/
def Obligations.PushingFrame : Prop :=
  ∀ (s t : State) (a : Operand), (exec (.push a) s = .next t ∨ exec (.call a) s = .next t) →
    (∀ j : Fin 8, j ≠ spIndex → t.regs[j] = s.regs[j]) ∧
    t.params = s.params ∧ t.fl = s.fl ∧ t.out = s.out ∧
    (t.status = s.status ∨ ∃ c, t.status = .faulted c s.pc) ∧
    (∀ ad, address s.params (s.params.wr (s.regs[spIndex] - 1)) = .ok ad → ∀ x, x ≠ ad → t.mem.read x = s.mem.read x) ∧
    (∀ c, address s.params (s.params.wr (s.regs[spIndex] - 1)) = .error c → ∀ x, t.mem.read x = s.mem.read x)

/-! ## The machine as a whole -/

/-- 10_state.md R30: only CMP writes `fl`, and only JEQ and JNE read it: for every other instruction, changing `fl`
before it changes nothing but what `fl` itself holds after it. -/
def Obligations.FlagsWriterAndReaders : Prop :=
  (∀ (i : Instr) (s t : State), exec i s = .next t → (∀ a b, i ≠ .cmp a b) → t.fl = s.fl) ∧
  (∀ (i : Instr) (s t : State) (f : Flag), (∀ a, i ≠ .jeq a) → (∀ a, i ≠ .jne a) → exec i s = .next t →
    ∃ u, exec i { s with fl := f } = .next u ∧ u = { t with fl := u.fl } ∧
      (t.status = .running → ∀ a b, i = .cmp a b → u.fl = t.fl))

/-- 10_state.md R37: `out` starts empty, and holds the integers PRN emitted, in execution order: a step appends the
register a PRN names, or leaves `out` as it is. -/
def Obligations.OutputOnlyByPrn : Prop :=
  (∀ p : Params, (State.resetWith p).out = []) ∧
  (∀ s t : State, step s = .next t →
    (∃ op r b2, fetch s = .ok (op, regOp r, b2) ∧ dispatch op (regOp r) b2 = some (.prn (regOp r)) ∧
      t.out = s.out ++ [s.regs[r]]) ∨
    (t.out = s.out ∧ ∀ op r b2, fetch s = .ok (op, regOp r, b2) → dispatch op (regOp r) b2 ≠ some (.prn (regOp r))))

/-- 20_memory.md R50: nothing but PUSH and CALL changes a memory cell during a run, and they change at most the one at
`A(wr(SP - 1))`. -/
def Obligations.MemoryOnlyByPushAndCall : Prop :=
  ∀ s t : State, step s = .next t → ∀ x, t.mem.read x ≠ s.mem.read x →
    address s.params (s.params.wr (s.regs[spIndex] - 1)) = .ok x ∧
    ∃ op b1 b2, fetch s = .ok (op, b1, b2) ∧
      (dispatch op b1 b2 = some (.push b1) ∨ dispatch op b1 b2 = some (.call b1))

/-- 41_alu.md R124 and 60_exceptions.md R173: the ALU raises for a foreign tag, dispatch never gives it one, and so no
step ends the run with that cause. -/
def Obligations.UnsupportedAluOpUnreachable : Prop :=
  (∀ (n : Nat) (a b : Fin 8) (s : State), aluApply (.other n) a b s = .error (.unsupportedAluOp (.other n))) ∧
  (∀ (s t : State) (tag : AluTag) (p : Int), step s = .next t → t.status ≠ .faulted (.unsupportedAluOp tag) p)

/-- 60_exceptions.md R176: `FlagsUnset` ends a run only at a JEQ or JNE, with `fl = None`, under `FLAGS_UNSET = fault` (the
spec's decision D8). -/
def Obligations.FlagsUnsetOnlyWhenAsked : Prop :=
  ∀ (s t : State) (p : Int), step s = .next t → t.status = .faulted .flagsUnset p →
    s.fl = .none ∧ s.params.flagsUnset = .fault ∧
    ∃ op b1 b2, fetch s = .ok (op, b1, b2) ∧
      (dispatch op b1 b2 = some (.jeq b1) ∨ dispatch op b1 b2 = some (.jne b1))

/-- 20_memory.md R51: no step raises `AddressOutOfRange` under `wrap8` or under `ADDR = wrap` (the spec's decision D4). -/
def Obligations.WrappedAddressesNeverFault : Prop :=
  ∀ (s t : State) (v p : Int), (s.params.arith = .wrap8 ∨ s.params.addr = .wrap) → step s = .next t →
    t.status ≠ .faulted (.addressOutOfRange v) p

/-- 42_stack.md R135: a push immediately followed by a pop returns the value and leaves SP unchanged. Under `wrap8` the
registers are in their domain (10_state.md R21), which is an invariant (StepKeepsInvariant). -/
def Obligations.PushPopRoundTrip : Prop :=
  ∀ (s t : State) (ra rb : Fin 8), s.Inv → rb ≠ spIndex → s.status = .running →
    exec (.push (regOp ra)) s = .next t → t.status = .running →
    ∃ u, exec (.pop (regOp rb)) t = .next u ∧ u.status = .running ∧
      u.regs[rb] = s.regs[ra] ∧ u.regs[spIndex] = s.regs[spIndex]

/-- 44_control_transfer.md R153: a RET that finds SP and the cell the CALL wrote as the CALL left them returns to the
instruction after the CALL, and restores SP. -/
def Obligations.CallRetLaw : Prop :=
  ∀ (s t u : State) (r : Fin 8), s.Inv → s.status = .running → exec (.call (regOp r)) s = .next t → t.status = .running →
    u.params = s.params → u.regs[spIndex] = t.regs[spIndex] →
    (∀ ad, address t.params t.regs[spIndex] = .ok ad → u.mem.read ad = t.mem.read ad) →
    ∃ v, exec .ret u = .next v ∧ v.pc = s.params.tgt (s.pc + 2) ∧ v.regs[spIndex] = s.regs[spIndex] ∧
      v.status = u.status

/-- 40_fetch_decode_execute.md R108: a run need not end: a JMP to its own address keeps the machine in the same state for
any number of cycles. -/
def Obligations.JumpToSelfNeverEnds : Prop :=
  ∀ (s : State) (b2 : Operand) (r : Fin 8), s.status = .running → fetch s = .ok (0x54, regOp r, b2) →
    s.params.tgt s.regs[r] = s.pc →
    ∀ n, Host.Core.run core n s = .next s ∧ runFor n s = .notYet s

/-! ## Reset, load, invariant -/

/-- 10_state.md R40, 70_reset_and_hazards.md R190: the state after reset. SP, `pc` and `fl` are the spec's decisions D9,
D10 and D8 (log entry 12); `Running` is the model's reading of "once the run starts" (log entry 4). -/
def Obligations.ResetValues : Prop :=
  State.reset = State.resetWith Params.default ∧
  ∀ p : Params,
    (∀ r : Fin 8, r ≠ spIndex → (State.resetWith p).regs[r] = 0) ∧
    (p.arith = .reference → (State.resetWith p).regs[spIndex] = 244) ∧
    (p.arith = .wrap8 → (State.resetWith p).regs[spIndex] = -12) ∧
    address p (State.resetWith p).regs[spIndex] = .ok 0xF4 ∧
    (State.resetWith p).pc = 0 ∧ (State.resetWith p).fl = .none ∧
    (∀ a, (State.resetWith p).mem.read a = 0) ∧ (State.resetWith p).out = [] ∧
    (State.resetWith p).status = .running ∧ (State.resetWith p).params = p

/-- 70_reset_and_hazards.md R192, 60_exceptions.md R188: program load. The limit of 256 bytes is the spec's decision D20. -/
def Obligations.LoadPlacesImage : Prop :=
  ∀ (s : State) (image : List Byte), s.mem.wf = true →
    (image.length ≤ 256 → ∃ t, s.loadImage image = .ok t ∧ t = { s with mem := t.mem } ∧ t.mem.wf = true ∧
      (∀ k b, image[k]? = some b → t.mem.read k = (b.toNat : Int)) ∧
      ∀ x, image.length ≤ x → t.mem.read x = s.mem.read x) ∧
    (256 < image.length → s.loadImage image = .error .imageTooLong)

/-- The invariant holds after reset, and still after a program load, under any legal parameters. -/
def Obligations.ResetMeetsInvariant : Prop :=
  ∀ p : Params, paramsOk p = true →
    (State.resetWith p).Inv ∧ ∀ image t, (State.resetWith p).loadImage image = .ok t → t.Inv

/-- Every step keeps the invariant: memory in canonical form inside the 256 cells, and under `wrap8` every register in
`-128 .. 127`, `pc` and every cell in `0 .. 255` (10_state.md R21, R26, R33; the domains are the spec's decision D3). -/
def Obligations.StepKeepsInvariant : Prop :=
  ∀ s t : State, s.Inv → step s = .next t → t.Inv ∧ t.params = s.params

/-- Every run, of any length, from a state that meets the invariant stays in the invariant, with the parameters it started
with and its output only ever longer (10_state.md R20, R37). -/
def Obligations.RunKeepsInvariant : Prop :=
  ∀ (n : Nat) (s t : State), s.Inv → Host.Core.run core n s = .next t →
    t.Inv ∧ t.params = s.params ∧ ∃ printed, t.out = s.out ++ printed
end

