-- ==== Sys2Proof/Laws/State.lean ====
section
/-! SUPPORT. What each update of the state does to each field, so that no proof unfolds a record update. -/

namespace Sys2Proof.Machine

/-! `writeReg` -/

@[simp] theorem State.writeReg_params (s : State) (i : Fin 8) (v : Int) : (s.writeReg i v).params = s.params := rfl
@[simp] theorem State.writeReg_regs (s : State) (i : Fin 8) (v : Int) : (s.writeReg i v).regs = s.regs.set i (s.params.wr v) := rfl
@[simp] theorem State.writeReg_pc (s : State) (i : Fin 8) (v : Int) : (s.writeReg i v).pc = s.pc := rfl
@[simp] theorem State.writeReg_fl (s : State) (i : Fin 8) (v : Int) : (s.writeReg i v).fl = s.fl := rfl
@[simp] theorem State.writeReg_mem (s : State) (i : Fin 8) (v : Int) : (s.writeReg i v).mem = s.mem := rfl
@[simp] theorem State.writeReg_status (s : State) (i : Fin 8) (v : Int) : (s.writeReg i v).status = s.status := rfl
@[simp] theorem State.writeReg_out (s : State) (i : Fin 8) (v : Int) : (s.writeReg i v).out = s.out := rfl

/-! `writePc` -/

@[simp] theorem State.writePc_params (s : State) (v : Int) : (s.writePc v).params = s.params := rfl
@[simp] theorem State.writePc_regs (s : State) (v : Int) : (s.writePc v).regs = s.regs := rfl
@[simp] theorem State.writePc_pc (s : State) (v : Int) : (s.writePc v).pc = s.params.tgt v := rfl
@[simp] theorem State.writePc_fl (s : State) (v : Int) : (s.writePc v).fl = s.fl := rfl
@[simp] theorem State.writePc_mem (s : State) (v : Int) : (s.writePc v).mem = s.mem := rfl
@[simp] theorem State.writePc_status (s : State) (v : Int) : (s.writePc v).status = s.status := rfl
@[simp] theorem State.writePc_out (s : State) (v : Int) : (s.writePc v).out = s.out := rfl

/-! `advance` -/

@[simp] theorem State.advance_params (s : State) (len : Nat) : (s.advance len).params = s.params := rfl
@[simp] theorem State.advance_regs (s : State) (len : Nat) : (s.advance len).regs = s.regs := rfl
@[simp] theorem State.advance_pc (s : State) (len : Nat) : (s.advance len).pc = s.params.tgt (s.pc + (len : Int)) := rfl
@[simp] theorem State.advance_fl (s : State) (len : Nat) : (s.advance len).fl = s.fl := rfl
@[simp] theorem State.advance_mem (s : State) (len : Nat) : (s.advance len).mem = s.mem := rfl
@[simp] theorem State.advance_status (s : State) (len : Nat) : (s.advance len).status = s.status := rfl
@[simp] theorem State.advance_out (s : State) (len : Nat) : (s.advance len).out = s.out := rfl

/-! `writeFlag` -/

@[simp] theorem State.writeFlag_params (s : State) (f : Flag) : (s.writeFlag f).params = s.params := rfl
@[simp] theorem State.writeFlag_regs (s : State) (f : Flag) : (s.writeFlag f).regs = s.regs := rfl
@[simp] theorem State.writeFlag_pc (s : State) (f : Flag) : (s.writeFlag f).pc = s.pc := rfl
@[simp] theorem State.writeFlag_fl (s : State) (f : Flag) : (s.writeFlag f).fl = f := rfl
@[simp] theorem State.writeFlag_mem (s : State) (f : Flag) : (s.writeFlag f).mem = s.mem := rfl
@[simp] theorem State.writeFlag_status (s : State) (f : Flag) : (s.writeFlag f).status = s.status := rfl
@[simp] theorem State.writeFlag_out (s : State) (f : Flag) : (s.writeFlag f).out = s.out := rfl

/-! `store` -/

@[simp] theorem State.store_params (s : State) (a : Nat) (v : Int) : (s.store a v).params = s.params := rfl
@[simp] theorem State.store_regs (s : State) (a : Nat) (v : Int) : (s.store a v).regs = s.regs := rfl
@[simp] theorem State.store_pc (s : State) (a : Nat) (v : Int) : (s.store a v).pc = s.pc := rfl
@[simp] theorem State.store_fl (s : State) (a : Nat) (v : Int) : (s.store a v).fl = s.fl := rfl
@[simp] theorem State.store_mem (s : State) (a : Nat) (v : Int) : (s.store a v).mem = s.mem.write a (s.params.cell v) := rfl
@[simp] theorem State.store_status (s : State) (a : Nat) (v : Int) : (s.store a v).status = s.status := rfl
@[simp] theorem State.store_out (s : State) (a : Nat) (v : Int) : (s.store a v).out = s.out := rfl

/-! `emit` -/

@[simp] theorem State.emit_params (s : State) (v : Int) : (s.emit v).params = s.params := rfl
@[simp] theorem State.emit_regs (s : State) (v : Int) : (s.emit v).regs = s.regs := rfl
@[simp] theorem State.emit_pc (s : State) (v : Int) : (s.emit v).pc = s.pc := rfl
@[simp] theorem State.emit_fl (s : State) (v : Int) : (s.emit v).fl = s.fl := rfl
@[simp] theorem State.emit_mem (s : State) (v : Int) : (s.emit v).mem = s.mem := rfl
@[simp] theorem State.emit_status (s : State) (v : Int) : (s.emit v).status = s.status := rfl
@[simp] theorem State.emit_out (s : State) (v : Int) : (s.emit v).out = s.out ++ [v] := rfl

/-! `halt` -/

@[simp] theorem State.halt_params (s : State) : (s.halt).params = s.params := rfl
@[simp] theorem State.halt_regs (s : State) : (s.halt).regs = s.regs := rfl
@[simp] theorem State.halt_pc (s : State) : (s.halt).pc = s.pc := rfl
@[simp] theorem State.halt_fl (s : State) : (s.halt).fl = s.fl := rfl
@[simp] theorem State.halt_mem (s : State) : (s.halt).mem = s.mem := rfl
@[simp] theorem State.halt_status (s : State) : (s.halt).status = .halted := rfl
@[simp] theorem State.halt_out (s : State) : (s.halt).out = s.out := rfl

/-! `raise` -/

@[simp] theorem State.raise_params (s : State) (c : Cause) : (s.raise c).params = s.params := rfl
@[simp] theorem State.raise_regs (s : State) (c : Cause) : (s.raise c).regs = s.regs := rfl
@[simp] theorem State.raise_pc (s : State) (c : Cause) : (s.raise c).pc = s.pc := rfl
@[simp] theorem State.raise_fl (s : State) (c : Cause) : (s.raise c).fl = s.fl := rfl
@[simp] theorem State.raise_mem (s : State) (c : Cause) : (s.raise c).mem = s.mem := rfl
@[simp] theorem State.raise_status (s : State) (c : Cause) : (s.raise c).status = .faulted c s.pc := rfl
@[simp] theorem State.raise_out (s : State) (c : Cause) : (s.raise c).out = s.out := rfl

/-! `refuse` -/

@[simp] theorem State.refuse_params (s : State) (op : Int) : (s.refuse op).params = s.params := rfl
@[simp] theorem State.refuse_regs (s : State) (op : Int) : (s.refuse op).regs = s.regs := rfl
@[simp] theorem State.refuse_pc (s : State) (op : Int) : (s.refuse op).pc = s.pc := rfl
@[simp] theorem State.refuse_fl (s : State) (op : Int) : (s.refuse op).fl = s.fl := rfl
@[simp] theorem State.refuse_mem (s : State) (op : Int) : (s.refuse op).mem = s.mem := rfl
@[simp] theorem State.refuse_status (s : State) (op : Int) : (s.refuse op).status = .refused op s.pc := rfl
@[simp] theorem State.refuse_out (s : State) (op : Int) : (s.refuse op).out = s.out := rfl

/-! Reading a register through the accessors. -/

theorem State.reg_eq (s : State) (i : Fin 8) : s.reg i = s.regs[i] := rfl

theorem State.sp_eq (s : State) : s.sp = s.regs[spIndex] := rfl

/-- The register file after a write, at the register written. -/
theorem regs_set_same (v : Vector Int 8) (i : Fin 8) (x : Int) : (v.set i x)[i] = x := by
  simp

/-- The register file after a write, at any other register. -/
theorem regs_set_ne (v : Vector Int 8) {i j : Fin 8} (x : Int) (h : i ≠ j) : (v.set i x)[j] = v[j] := by
  simp [Fin.val_ne_of_ne h]

@[simp] theorem State.reg_writeReg_same (s : State) (i : Fin 8) (v : Int) : (s.writeReg i v).reg i = s.params.wr v := by
  simp [State.reg]

@[simp] theorem State.reg_writeReg_ne (s : State) {i j : Fin 8} (v : Int) (h : i ≠ j) :
    (s.writeReg i v).reg j = s.reg j := by
  simp [State.reg, Fin.val_ne_of_ne h]

@[simp] theorem State.reg_writePc (s : State) (v : Int) (j : Fin 8) : (s.writePc v).reg j = s.reg j := rfl
@[simp] theorem State.reg_advance (s : State) (len : Nat) (j : Fin 8) : (s.advance len).reg j = s.reg j := rfl
@[simp] theorem State.reg_writeFlag (s : State) (f : Flag) (j : Fin 8) : (s.writeFlag f).reg j = s.reg j := rfl
@[simp] theorem State.reg_store (s : State) (a : Nat) (v : Int) (j : Fin 8) : (s.store a v).reg j = s.reg j := rfl
@[simp] theorem State.reg_emit (s : State) (v : Int) (j : Fin 8) : (s.emit v).reg j = s.reg j := rfl
@[simp] theorem State.reg_halt (s : State) (j : Fin 8) : (s.halt).reg j = s.reg j := rfl
@[simp] theorem State.reg_raise (s : State) (c : Cause) (j : Fin 8) : (s.raise c).reg j = s.reg j := rfl
@[simp] theorem State.reg_refuse (s : State) (op : Int) (j : Fin 8) : (s.refuse op).reg j = s.reg j := rfl

end Sys2Proof.Machine
end

