-- ==== Sys2Proof/Laws/Ops.lean ====
section
/-! SUPPORT. One lemma per shared operation that says everything it can do. -/

namespace Sys2Proof.Machine

/-- An address the core forms lies in the address space (20_memory.md R50). -/
theorem address_lt {p : Params} {v : Int} {a : Nat} (h : address p v = .ok a) : a < memSize := by
  unfold address at h
  split at h
  · cases h; simp only [memSize]; omega
  · split at h
    · cases h; simp only [memSize]; omega
    · split at h
      · cases h; simp only [memSize]; omega
      · cases h

/-- `A(v)` raises nothing but `AddressOutOfRange(v)`, and only under `reference` with `ADDR = fault` (00_scope.md R11). -/
theorem address_error {p : Params} {v : Int} {c : Cause} (h : address p v = .error c) :
    c = .addressOutOfRange v ∧ p.arith = .reference ∧ p.addr = .fault ∧ (v < 0 ∨ 255 < v) := by
  unfold address at h
  split at h
  · cases h
  · next ha =>
    split at h
    · cases h
    · split at h
      · cases h
      · next hr hd => cases h; exact ⟨rfl, ha, hd, by omega⟩

/-- The address an access goes to is `v` modulo 256 (00_scope.md R11). -/
theorem address_ok {p : Params} {v : Int} {a : Nat} (h : address p v = .ok a) : (a : Int) = v % 256 := by
  unfold address at h
  split at h
  · cases h; omega
  · split at h
    · cases h; omega
    · split at h
      · cases h; omega
      · cases h

/-- `Ridx` of a register index is that register (00_scope.md R12). -/
@[simp] theorem registerIndex_reg (r : Fin 8) : registerIndex (r.val : Int) = .ok r := by
  have := r.isLt
  unfold registerIndex
  rw [dif_pos (by omega)]
  simp

/-- `Ridx` of any other value raises (00_scope.md R12). -/
theorem registerIndex_bad {x : Int} (h : x < 0 ∨ 7 < x) :
    registerIndex x = .error (.registerIndexOutOfRange x) := by
  unfold registerIndex
  rw [dif_neg (by omega)]

/-- If `Ridx` answers a register, the value was its index. -/
theorem registerIndex_ok {x : Int} {r : Fin 8} (h : registerIndex x = .ok r) : x = (r.val : Int) := by
  unfold registerIndex at h
  split at h
  · cases h; simp; omega
  · cases h

@[simp] theorem operandValue_cell (v : Int) : operandValue (.cell v) = .ok v := rfl

@[simp] theorem operandValue_absent (v : Int) : operandValue (.absent v) = .error (.addressOutOfRange v) := rfl

@[simp] theorem registerOperand_cell (x : Int) : registerOperand (.cell x) = registerIndex x := rfl

@[simp] theorem registerOperand_absent (v : Int) :
    registerOperand (.absent v) = .error (.addressOutOfRange v) := rfl

/-- If a register operand is read, it was a present cell holding that register's index (30_encoding.md R75). -/
theorem registerOperand_ok {o : Operand} {r : Fin 8} (h : registerOperand o = .ok r) : o = .cell (r.val : Int) := by
  cases o with
  | cell x => rw [registerIndex_ok h]
  | absent v => cases h

/-- The causes a register operand can raise (60_exceptions.md R174, R175). -/
theorem registerOperand_error {o : Operand} {c : Cause} (h : registerOperand o = .error c) :
    (∃ v, o = .absent v ∧ c = .addressOutOfRange v) ∨
    ∃ x, o = .cell x ∧ (x < 0 ∨ 7 < x) ∧ c = .registerIndexOutOfRange x := by
  cases o with
  | absent v => cases h; exact .inl ⟨v, rfl, rfl⟩
  | cell x =>
    simp only [registerOperand_cell, registerIndex] at h
    split at h
    · cases h
    · cases h; exact .inr ⟨x, rfl, by omega, rfl⟩

@[simp] theorem commit_ok (s t : State) : s.commit (.ok t) = .next t := rfl

@[simp] theorem commit_error (s : State) (c : Cause) : s.commit (.error c) = .next (s.raise c) := rfl

/-- An instruction always ends in a next state: its writes committed, or the run faulted with nothing committed
(00_scope.md R13, R14). -/
theorem commit_next {s t : State} {r : Except Cause State} (h : s.commit r = .next t) :
    r = .ok t ∨ ∃ c, r = .error c ∧ t = s.raise c := by
  cases r with
  | ok u => cases h; exact .inl rfl
  | error c => cases h; exact .inr ⟨c, rfl, rfl⟩

/-- Everything `push` can do (42_stack.md R130). -/
theorem pushValue_cases (s : State) (v : Int) :
    (∃ ad, address s.params (s.params.wr (s.sp - 1)) = .ok ad ∧
      s.pushValue v = .ok ((s.writeReg spIndex (s.sp - 1)).store ad v)) ∨
    ∃ c, address s.params (s.params.wr (s.sp - 1)) = .error c ∧ s.pushValue v = .error c := by
  unfold State.pushValue
  cases h : address s.params (s.params.wr (s.sp - 1)) with
  | ok ad => exact .inl ⟨ad, rfl, rfl⟩
  | error c => exact .inr ⟨c, rfl, rfl⟩

/-- Everything `pop` can do (42_stack.md R131). -/
theorem popValue_cases (s : State) :
    (∃ ad, address s.params s.sp = .ok ad ∧
      s.popValue = .ok (s.load ad, s.writeReg spIndex (s.sp + 1))) ∨
    ∃ c, address s.params s.sp = .error c ∧ s.popValue = .error c := by
  unfold State.popValue
  cases h : address s.params s.sp with
  | ok ad => exact .inl ⟨ad, rfl, rfl⟩
  | error c => exact .inr ⟨c, rfl, rfl⟩

@[simp] theorem bind_ok {α β : Type} (a : α) (f : α → Except Cause β) : (Except.ok a >>= f) = f a := rfl

@[simp] theorem bind_error {α β : Type} (c : Cause) (f : α → Except Cause β) :
    ((Except.error c : Except Cause α) >>= f) = .error c := rfl

@[simp] theorem pure_ok {α : Type} (a : α) : (pure a : Except Cause α) = .ok a := rfl

/-- The body of ADD, MUL and CMP on two register operands (41_alu.md R121 to R123). -/
theorem aluBody_regs (op : AluTag) (ra rb : Fin 8) (s : State) :
    aluBody op (.cell (ra.val : Int)) (.cell (rb.val : Int)) s = (aluApply op ra rb s).map (fun t => t.advance 3) := by
  simp only [aluBody, registerOperand_cell, registerIndex_reg, bind_ok]
  cases aluApply op ra rb s <;> rfl

/-- The transfer of JMP and the taken conditional jumps (44_control_transfer.md R157). -/
@[simp] theorem jumpTo_reg (r : Fin 8) (s : State) :
    jumpTo (.cell (r.val : Int)) s = .ok (s.writePc (s.reg r)) := by
  simp only [jumpTo, registerOperand_cell, registerIndex_reg]
  rfl

/-- The flags check of JEQ and JNE (10_state.md R31). -/
theorem flagsCheck_cases (s : State) :
    (s.flagsCheck = .ok () ∧ ¬ (s.fl = .none ∧ s.params.flagsUnset = .fault)) ∨
    (s.flagsCheck = .error .flagsUnset ∧ s.fl = .none ∧ s.params.flagsUnset = .fault) := by
  cases hf : s.fl <;> cases hu : s.params.flagsUnset <;> simp [State.flagsCheck, hf, hu]

end Sys2Proof.Machine
end

