-- ==== Sys2Proof/Laws/Cycle.lean ====
section
/-! SUPPORT. What the fetch and the cycle can do. -/

namespace Sys2Proof.Machine

/-- Everything the read of a candidate operand can do (40_fetch_decode_execute.md R100, R101). -/
theorem candidate_cases (s : State) (v : Int) :
    (∃ a, address s.params v = .ok a ∧ candidate s v = .ok (.cell (s.load a))) ∨
    (∃ c, address s.params v = .error c ∧ s.params.lookahead = .strict ∧ candidate s v = .error c) ∨
    (∃ c, address s.params v = .error c ∧ s.params.lookahead = .lazy ∧ candidate s v = .ok (.absent v)) := by
  unfold candidate
  cases h : address s.params v with
  | ok a => exact .inl ⟨a, rfl, rfl⟩
  | error c =>
    cases hl : s.params.lookahead with
    | strict => exact .inr (.inl ⟨c, rfl, rfl, rfl⟩)
    | lazy => exact .inr (.inr ⟨c, rfl, rfl, rfl⟩)

/-- What a fetch that succeeds has read (40_fetch_decode_execute.md R100). -/
theorem fetch_ok {s : State} {op : Int} {b1 b2 : Operand} (h : fetch s = .ok (op, b1, b2)) :
    ∃ a, address s.params s.pc = .ok a ∧ op = s.load a ∧
      candidate s (s.pc + 1) = .ok b1 ∧ candidate s (s.pc + 2) = .ok b2 := by
  unfold fetch at h
  split at h
  · cases h
  · next a ha =>
    split at h
    · cases h
    · next c1 h1 =>
      split at h
      · cases h
      · next c2 h2 => cases h; exact ⟨a, ha, rfl, h1, h2⟩

/-- A fetch raises nothing but `AddressOutOfRange` (60_exceptions.md R179). -/
theorem fetch_error {s : State} {c : Cause} (h : fetch s = .error c) : ∃ v, c = .addressOutOfRange v := by
  have hc : ∀ v, candidate s v = .error c → ∃ w, c = .addressOutOfRange w := by
    intro v hv
    rcases candidate_cases s v with ⟨a, _, h1⟩ | ⟨d, hd, _, h1⟩ | ⟨d, _, _, h1⟩ <;> rw [h1] at hv <;> cases hv
    exact ⟨v, (address_error hd).1⟩
  unfold fetch at h
  split at h
  · next d hd => cases h; exact ⟨_, (address_error hd).1⟩
  · split at h
    · next d hd => cases h; exact hc _ hd
    · split at h
      · next d hd => cases h; exact hc _ hd
      · cases h

/-- Everything a step can do (40_fetch_decode_execute.md R100 to R102, R107). -/
theorem step_cases (s : State) :
    (s.status = .running ∧ ∃ c, fetch s = .error c ∧ step s = .next (s.raise c)) ∨
    (s.status = .running ∧ ∃ op b1 b2 i, fetch s = .ok (op, b1, b2) ∧ dispatch op b1 b2 = some i ∧ step s = exec i s) ∨
    (s.status = .running ∧ ∃ op b1 b2, fetch s = .ok (op, b1, b2) ∧ dispatch op b1 b2 = none ∧
      step s = .next (s.unrecognised op)) ∨
    (s.status ≠ .running ∧ step s = .fault (.runEnded s.status)) := by
  cases hs : s.status with
  | running =>
    cases hf : fetch s with
    | error c => exact .inl ⟨rfl, c, rfl, by simp [step, cycle, hs, hf]⟩
    | ok x =>
      obtain ⟨op, b1, b2⟩ := x
      cases hd : dispatch op b1 b2 with
      | some i => exact .inr (.inl ⟨rfl, op, b1, b2, i, rfl, hd, by simp [step, cycle, hs, hf, hd]⟩)
      | none => exact .inr (.inr (.inl ⟨rfl, op, b1, b2, rfl, hd, by simp [step, cycle, hs, hf, hd]⟩))
  | halted => exact .inr (.inr (.inr ⟨by simp, by simp [step, cycle, hs]⟩))
  | faulted c p => exact .inr (.inr (.inr ⟨by simp, by simp [step, cycle, hs]⟩))
  | refused op p => exact .inr (.inr (.inr ⟨by simp, by simp [step, cycle, hs]⟩))

/-- An unrecognised opcode changes only the status (60_exceptions.md R172, R177). -/
theorem unrecognised_cases (s : State) (op : Int) :
    (opcodeUnlisted s.params op = true ∧ s.unrecognised op = s.refuse op) ∨
    (opcodeUnlisted s.params op = false ∧ s.unrecognised op = s.raise (.unknownOpcode op)) := by
  cases h : opcodeUnlisted s.params op with
  | true => exact .inl ⟨rfl, by simp [State.unrecognised, h]⟩
  | false => exact .inr ⟨rfl, by simp [State.unrecognised, h]⟩

end Sys2Proof.Machine
end

