-- ==== Sys2Proof/Laws/Decode.lean ====
section
/-! SUPPORT. The opcode table: no two rows overlap, the length field, and what the table look-up answers. -/

namespace Sys2Proof

/-- No two rows of 30_encoding.md R72 have the same opcode. -/
theorem opcodes_distinct : Mnemonic.all.Pairwise (fun m n => m.opcode ≠ n.opcode) := by decide

/-- `length = 1 + op[7:6]` (30_encoding.md R74, R79). -/
theorem length_field (m : Mnemonic) : m.length = 1 + (m.opcode >>> 6).toNat := by cases m <;> decide

/-- The row of each opcode (30_encoding.md R72). -/
@[simp] theorem ofOpcode_opcode (m : Mnemonic) : Mnemonic.ofOpcode m.opcode.value = some m := by cases m <;> decide

/-- A row the look-up answers has exactly that opcode (30_encoding.md R73). -/
theorem ofOpcode_some {op : Int} {m : Mnemonic} (h : Mnemonic.ofOpcode op = some m) : op = m.opcode.value := by
  have := List.find?_some h
  simpa using (eq_comm.mp (beq_iff_eq.mp this))

@[simp] theorem assemble_mnemonic (m : Mnemonic) (b1 b2 : Operand) : (m.assemble b1 b2).mnemonic = m := by
  cases m <;> rfl

/-- A dispatched instruction is the row of the opcode with its operands in place (40_fetch_decode_execute.md R102). -/
theorem dispatch_some {op : Int} {b1 b2 : Operand} {i : Instr} (h : dispatch op b1 b2 = some i) :
    op = i.mnemonic.opcode.value ∧ i = i.mnemonic.assemble b1 b2 := by
  unfold dispatch at h
  obtain ⟨m, hm, rfl⟩ := Option.map_eq_some_iff.mp h
  simp [ofOpcode_some hm]

end Sys2Proof
end

