-- ==== Sys2Proof/Laws/Exec.lean ====
section
/-! SUPPORT. Everything the execution of an instruction can do, said once: `exec_effect`. -/

namespace Sys2Proof.Machine

/-- The causes an instruction can raise (60_exceptions.md R174 to R176). -/
inductive Raises (s : State) (i : Instr) : Cause → Prop where
  | absentOperand (v : Int) (h : Operand.absent v ∈ i.operands) : Raises s i (.addressOutOfRange v)
  | badIndex (x : Int) (h : Operand.cell x ∈ i.operands) (hx : x < 0 ∨ 7 < x) : Raises s i (.registerIndexOutOfRange x)
  | pushAddress (c : Cause) (hi : (∃ a, i = .push a) ∨ ∃ a, i = .call a)
      (h : address s.params (s.params.wr (s.sp - 1)) = .error c) : Raises s i c
  | popAddress (c : Cause) (hi : (∃ a, i = .pop a) ∨ i = .ret) (h : address s.params s.sp = .error c) : Raises s i c
  | flags (hi : (∃ a, i = .jeq a) ∨ ∃ a, i = .jne a) (hf : s.fl = .none) (hu : s.params.flagsUnset = .fault) :
      Raises s i .flagsUnset

/-- The next states of an instruction, one case per way it can end. -/
inductive Effect (s : State) : Instr → State → Prop where
  | raised (i : Instr) (c : Cause) (h : Raises s i c) : Effect s i (s.raise c)
  | hlt : Effect s .hlt s.halt
  | ldi (r : Fin 8) (v : Int) : Effect s (.ldi (.cell (r.val : Int)) (.cell v)) ((s.writeReg r v).advance 3)
  | prn (r : Fin 8) : Effect s (.prn (.cell (r.val : Int))) ((s.emit (s.reg r)).advance 2)
  | add (ra rb : Fin 8) :
      Effect s (.add (.cell (ra.val : Int)) (.cell (rb.val : Int))) ((s.writeReg ra (s.reg ra + s.reg rb)).advance 3)
  | mul (ra rb : Fin 8) :
      Effect s (.mul (.cell (ra.val : Int)) (.cell (rb.val : Int))) ((s.writeReg ra (s.reg ra * s.reg rb)).advance 3)
  | cmp (ra rb : Fin 8) :
      Effect s (.cmp (.cell (ra.val : Int)) (.cell (rb.val : Int)))
        ((s.writeFlag (compareFlag (s.reg ra) (s.reg rb))).advance 3)
  | push (r : Fin 8) (ad : Nat) (h : address s.params (s.params.wr (s.sp - 1)) = .ok ad) :
      Effect s (.push (.cell (r.val : Int))) (((s.writeReg spIndex (s.sp - 1)).store ad (s.reg r)).advance 2)
  | pop (r : Fin 8) (ad : Nat) (h : address s.params s.sp = .ok ad) :
      Effect s (.pop (.cell (r.val : Int))) (((s.writeReg spIndex (s.sp + 1)).writeReg r (s.load ad)).advance 2)
  | call (r : Fin 8) (ad : Nat) (h : address s.params (s.params.wr (s.sp - 1)) = .ok ad) :
      Effect s (.call (.cell (r.val : Int)))
        (((s.writeReg spIndex (s.sp - 1)).store ad (s.pc + 2)).writePc ((s.writeReg spIndex (s.sp - 1)).reg r))
  | ret (ad : Nat) (h : address s.params s.sp = .ok ad) :
      Effect s .ret ((s.writeReg spIndex (s.sp + 1)).writePc (s.load ad))
  | jmp (r : Fin 8) : Effect s (.jmp (.cell (r.val : Int))) (s.writePc (s.reg r))
  | jeqTaken (r : Fin 8) (h : s.fl = .equal) : Effect s (.jeq (.cell (r.val : Int))) (s.writePc (s.reg r))
  | jeqNotTaken (a : Operand) (h : s.fl ≠ .equal) : Effect s (.jeq a) (s.advance 2)
  | jneTaken (r : Fin 8) (h : s.fl ≠ .equal) : Effect s (.jne (.cell (r.val : Int))) (s.writePc (s.reg r))
  | jneNotTaken (a : Operand) (h : s.fl = .equal) : Effect s (.jne a) (s.advance 2)

/-- A register operand that raises is a cause of its instruction. -/
theorem registerOperand_raises {s : State} {i : Instr} {o : Operand} {c : Cause} (ho : o ∈ i.operands)
    (h : registerOperand o = .error c) : Raises s i c := by
  rcases registerOperand_error h with ⟨v, rfl, rfl⟩ | ⟨x, rfl, hx, rfl⟩
  · exact .absentOperand v ho
  · exact .badIndex x ho hx

/-- What the shared body of ADD, MUL and CMP can do (41_alu.md R121 to R123). -/
theorem aluBody_cases (op : AluTag) (a b : Operand) (s : State) :
    (∃ c, aluBody op a b s = .error c ∧ (registerOperand a = .error c ∨ registerOperand b = .error c)) ∨
    ∃ ra rb : Fin 8, a = .cell (ra.val : Int) ∧ b = .cell (rb.val : Int) ∧
      aluBody op a b s = (aluApply op ra rb s).map (fun t => t.advance 3) := by
  cases ha : registerOperand a with
  | error c => exact .inl ⟨c, by simp [aluBody, ha], .inl rfl⟩
  | ok ra =>
    cases hb : registerOperand b with
    | error c => exact .inl ⟨c, by simp [aluBody, ha, hb], .inr rfl⟩
    | ok rb =>
      obtain rfl := registerOperand_ok ha
      obtain rfl := registerOperand_ok hb
      exact .inr ⟨ra, rb, rfl, rfl, aluBody_regs op ra rb s⟩

/-- What a transfer to a register can do (44_control_transfer.md R157). -/
theorem jumpTo_cases (a : Operand) (s : State) :
    (∃ c, jumpTo a s = .error c ∧ registerOperand a = .error c) ∨
    ∃ r : Fin 8, a = .cell (r.val : Int) ∧ jumpTo a s = .ok (s.writePc (s.reg r)) := by
  cases ha : registerOperand a with
  | error c => exact .inl ⟨c, by simp [jumpTo, ha], rfl⟩
  | ok r =>
    obtain rfl := registerOperand_ok ha
    exact .inr ⟨r, rfl, jumpTo_reg r s⟩

/-- Every next state of every instruction is one of the cases of `Effect`. -/
theorem exec_effect {i : Instr} {s t : State} (h : exec i s = .next t) : Effect s i t := by
  have alu : ∀ (op : AluTag) (a b : Operand), s.commit (aluBody op a b s) = .next t → i.operands = [a, b] →
      (∃ c, Raises s i c ∧ t = s.raise c) ∨
      ∃ ra rb : Fin 8, a = .cell (ra.val : Int) ∧ b = .cell (rb.val : Int) ∧
        s.commit ((aluApply op ra rb s).map (fun t => t.advance 3)) = .next t := by
    intro op a b h ho
    rcases aluBody_cases op a b s with ⟨c, hc, hr⟩ | ⟨ra, rb, rfl, rfl, hr⟩
    · rw [hc] at h; cases h
      rcases hr with hr | hr <;> exact .inl ⟨c, registerOperand_raises (by simp [ho]) hr, rfl⟩
    · rw [hr] at h; exact .inr ⟨ra, rb, rfl, rfl, h⟩
  cases i with
  | hlt => cases h; exact .hlt
  | ldi a imm =>
    simp only [exec, execLdi] at h
    cases ha : registerOperand a with
    | error c =>
      simp only [ha, bind_error, commit_error] at h; cases h
      exact .raised _ c (registerOperand_raises (by simp [Instr.operands]) ha)
    | ok r =>
      obtain rfl := registerOperand_ok ha
      cases imm with
      | cell v => simp only [ha, bind_ok, operandValue_cell, pure_ok, commit_ok] at h; cases h; exact .ldi r v
      | absent v =>
        simp only [ha, bind_ok, operandValue_absent, bind_error, commit_error] at h; cases h
        exact .raised _ _ (.absentOperand v (by simp [Instr.operands]))
  | prn a =>
    simp only [exec, execPrn] at h
    cases ha : registerOperand a with
    | error c =>
      simp only [ha, bind_error, commit_error] at h; cases h
      exact .raised _ c (registerOperand_raises (by simp [Instr.operands]) ha)
    | ok r =>
      obtain rfl := registerOperand_ok ha
      simp only [ha, bind_ok, pure_ok, commit_ok] at h; cases h; exact .prn r
  | add a b =>
    rcases alu .add a b h rfl with ⟨c, hc, rfl⟩ | ⟨ra, rb, rfl, rfl, h'⟩
    · exact .raised _ c hc
    · cases h'; exact .add ra rb
  | mul a b =>
    rcases alu .mul a b h rfl with ⟨c, hc, rfl⟩ | ⟨ra, rb, rfl, rfl, h'⟩
    · exact .raised _ c hc
    · cases h'; exact .mul ra rb
  | cmp a b =>
    rcases alu .cmp a b h rfl with ⟨c, hc, rfl⟩ | ⟨ra, rb, rfl, rfl, h'⟩
    · exact .raised _ c hc
    · cases h'; exact .cmp ra rb
  | push a =>
    simp only [exec, execPush] at h
    cases ha : registerOperand a with
    | error c =>
      simp only [ha, bind_error, commit_error] at h; cases h
      exact .raised _ c (registerOperand_raises (by simp [Instr.operands]) ha)
    | ok r =>
      obtain rfl := registerOperand_ok ha
      rcases pushValue_cases s (s.reg r) with ⟨ad, had, hp⟩ | ⟨c, hc, hp⟩
      · simp only [ha, bind_ok, hp, pure_ok, commit_ok] at h; cases h; exact .push r ad had
      · simp only [ha, bind_ok, hp, bind_error, commit_error] at h; cases h
        exact .raised _ c (.pushAddress c (.inl ⟨_, rfl⟩) hc)
  | pop a =>
    simp only [exec, execPop] at h
    cases ha : registerOperand a with
    | error c =>
      simp only [ha, bind_error, commit_error] at h; cases h
      exact .raised _ c (registerOperand_raises (by simp [Instr.operands]) ha)
    | ok r =>
      obtain rfl := registerOperand_ok ha
      rcases popValue_cases s with ⟨ad, had, hp⟩ | ⟨c, hc, hp⟩
      · simp only [ha, bind_ok, hp, pure_ok, commit_ok] at h; cases h; exact .pop r ad had
      · simp only [ha, bind_ok, hp, bind_error, commit_error] at h; cases h
        exact .raised _ c (.popAddress c (.inl ⟨_, rfl⟩) hc)
  | call a =>
    simp only [exec, execCall] at h
    cases ha : registerOperand a with
    | error c =>
      simp only [ha, bind_error, commit_error] at h; cases h
      exact .raised _ c (registerOperand_raises (by simp [Instr.operands]) ha)
    | ok r =>
      obtain rfl := registerOperand_ok ha
      rcases pushValue_cases s (s.pc + 2) with ⟨ad, had, hp⟩ | ⟨c, hc, hp⟩
      · simp only [ha, bind_ok, hp, pure_ok, commit_ok, State.reg_store] at h; cases h; exact .call r ad had
      · simp only [ha, bind_ok, hp, bind_error, commit_error] at h; cases h
        exact .raised _ c (.pushAddress c (.inr ⟨_, rfl⟩) hc)
  | ret =>
    simp only [exec, execRet] at h
    rcases popValue_cases s with ⟨ad, had, hp⟩ | ⟨c, hc, hp⟩
    · simp only [bind_ok, hp, pure_ok, commit_ok] at h; cases h; exact .ret ad had
    · simp only [hp, bind_error, commit_error] at h; cases h
      exact .raised _ c (.popAddress c (.inr rfl) hc)
  | jmp a =>
    simp only [exec, execJmp] at h
    rcases jumpTo_cases a s with ⟨c, hc, hr⟩ | ⟨r, rfl, hr⟩
    · rw [hc] at h; cases h; exact .raised _ c (registerOperand_raises (by simp [Instr.operands]) hr)
    · rw [hr] at h; cases h; exact .jmp r
  | jeq a =>
    simp only [exec, execJeq] at h
    rcases flagsCheck_cases s with ⟨hk, _⟩ | ⟨hk, hf, hu⟩
    · simp only [hk, bind_ok] at h
      split at h
      · next he =>
        rcases jumpTo_cases a s with ⟨c, hc, hr⟩ | ⟨r, rfl, hr⟩
        · rw [hc] at h; cases h; exact .raised _ c (registerOperand_raises (by simp [Instr.operands]) hr)
        · rw [hr] at h; cases h; exact .jeqTaken r he
      · next he => cases h; exact .jeqNotTaken a he
    · simp only [hk, bind_error, commit_error] at h; cases h
      exact .raised _ _ (.flags (.inl ⟨a, rfl⟩) hf hu)
  | jne a =>
    simp only [exec, execJne] at h
    rcases flagsCheck_cases s with ⟨hk, _⟩ | ⟨hk, hf, hu⟩
    · simp only [hk, bind_ok] at h
      split at h
      · next he =>
        rcases jumpTo_cases a s with ⟨c, hc, hr⟩ | ⟨r, rfl, hr⟩
        · rw [hc] at h; cases h; exact .raised _ c (registerOperand_raises (by simp [Instr.operands]) hr)
        · rw [hr] at h; cases h; exact .jneTaken r he
      · next he => cases h; exact .jneNotTaken a (by simpa using he)
    · simp only [hk, bind_error, commit_error] at h; cases h
      exact .raised _ _ (.flags (.inr ⟨a, rfl⟩) hf hu)

/-- Every instruction answers a next state (00_scope.md R13: even a raise is one). -/
theorem exec_total (i : Instr) (s : State) : ∃ t, exec i s = .next t := by
  have hc : ∀ r : Except Cause State, ∃ t, s.commit r = .next t := fun r => by
    cases r with
    | ok t => exact ⟨t, rfl⟩
    | error c => exact ⟨s.raise c, rfl⟩
  cases i with
  | hlt => exact ⟨s.halt, rfl⟩
  | _ => exact hc _

end Sys2Proof.Machine
end

