-- ==== Sys2Proof/Laws/PerInstr.lean ====
section
/-! SUPPORT. A law of every instruction as a term: the bytes it is encoded in are as many as its row of the opcode table
says (30_encoding.md R70, R72), and the first of them is its opcode. -/

namespace Sys2Proof.Laws.EncodedLength

/-- What the family says of one instruction. -/
def Statement (i : Instr) : Prop :=
  (encode i).length = i.mnemonic.length ∧ (encode i).head? = some i.mnemonic.opcode

theorem hlt : Statement .hlt := ⟨rfl, rfl⟩
theorem ldi (a imm : Operand) : Statement (.ldi a imm) := ⟨rfl, rfl⟩
theorem prn (a : Operand) : Statement (.prn a) := ⟨rfl, rfl⟩
theorem add (a b : Operand) : Statement (.add a b) := ⟨rfl, rfl⟩
theorem mul (a b : Operand) : Statement (.mul a b) := ⟨rfl, rfl⟩
theorem push (a : Operand) : Statement (.push a) := ⟨rfl, rfl⟩
theorem pop (a : Operand) : Statement (.pop a) := ⟨rfl, rfl⟩
theorem call (a : Operand) : Statement (.call a) := ⟨rfl, rfl⟩
theorem ret : Statement .ret := ⟨rfl, rfl⟩
theorem cmp (a b : Operand) : Statement (.cmp a b) := ⟨rfl, rfl⟩
theorem jmp (a : Operand) : Statement (.jmp a) := ⟨rfl, rfl⟩
theorem jeq (a : Operand) : Statement (.jeq a) := ⟨rfl, rfl⟩
theorem jne (a : Operand) : Statement (.jne a) := ⟨rfl, rfl⟩

end Sys2Proof.Laws.EncodedLength
end

