-- ==== Sys2Proof/Laws/Width.lean ====
section
/-! SUPPORT. The width primitives of 00_scope.md R8 and R10 under each `ARITH`, and their ranges. -/

namespace Sys2Proof

theorem sext8_range {u : Int} (h0 : 0 ≤ u) (h1 : u < 256) : -128 ≤ sext8 u ∧ sext8 u ≤ 127 := by
  unfold sext8; split <;> omega

theorem sext8_mod (u : Int) : sext8 u % 256 = u % 256 := by
  unfold sext8; split <;> omega

/-- A signed byte survives being masked and sign-extended. -/
theorem sext8_of_range {v : Int} (h0 : -128 ≤ v) (h1 : v ≤ 127) : sext8 (v % 256) = v := by
  unfold sext8; split <;> omega

theorem Params.wr_reference {p : Params} (h : p.arith = .reference) (v : Int) : p.wr v = v := by
  simp [Params.wr, h]

theorem Params.cell_reference {p : Params} (h : p.arith = .reference) (v : Int) : p.cell v = v := by
  simp [Params.cell, h]

theorem Params.tgt_reference {p : Params} (h : p.arith = .reference) (v : Int) : p.tgt v = v := by
  simp [Params.tgt, h]

theorem Params.wr_wrap8 {p : Params} (h : p.arith = .wrap8) (v : Int) : p.wr v = sext8 (v % 256) := by
  simp [Params.wr, h]

theorem Params.cell_wrap8 {p : Params} (h : p.arith = .wrap8) (v : Int) : p.cell v = v % 256 := by
  simp [Params.cell, h]

theorem Params.tgt_wrap8 {p : Params} (h : p.arith = .wrap8) (v : Int) : p.tgt v = v % 256 := by
  simp [Params.tgt, h]

theorem Params.wr_range {p : Params} (h : p.arith = .wrap8) (v : Int) : -128 ≤ p.wr v ∧ p.wr v ≤ 127 := by
  rw [Params.wr_wrap8 h]; exact sext8_range (by omega) (by omega)

theorem Params.cell_range {p : Params} (h : p.arith = .wrap8) (v : Int) : 0 ≤ p.cell v ∧ p.cell v ≤ 255 := by
  rw [Params.cell_wrap8 h]; omega

theorem Params.tgt_range {p : Params} (h : p.arith = .wrap8) (v : Int) : 0 ≤ p.tgt v ∧ p.tgt v ≤ 255 := by
  rw [Params.tgt_wrap8 h]; omega

/-- `wr` of what `cell` stored is the register value again, for a value a register can hold. -/
theorem Params.wr_cell {p : Params} {v : Int} (h : p.arith = .wrap8 → -128 ≤ v ∧ v ≤ 127) : p.wr (p.cell v) = v := by
  cases ha : p.arith with
  | reference => rw [Params.wr_reference ha, Params.cell_reference ha]
  | wrap8 =>
    rw [Params.wr_wrap8 ha, Params.cell_wrap8 ha, Int.emod_emod_of_dvd v (by decide)]
    exact sext8_of_range (h ha).1 (h ha).2

/-- `tgt` of what `cell` stored is `tgt` of the value. -/
theorem Params.tgt_cell (p : Params) (v : Int) : p.tgt (p.cell v) = p.tgt v := by
  cases ha : p.arith with
  | reference => rw [Params.cell_reference ha]
  | wrap8 => rw [Params.tgt_wrap8 ha, Params.tgt_wrap8 ha, Params.cell_wrap8 ha, Int.emod_emod_of_dvd v (by decide)]

end Sys2Proof
end

