-- ==== Sys2Proof/Tests/Slice0.lean ====
section
/-! SUPPORT. The model's own tests: expected results are the worked examples and vectors of spec/95_test_vectors.md and
the examples of the rules, named in each comment. Then one witness for the hypotheses of each statement. -/

namespace Sys2Proof.Tests

open Sys2Proof Sys2Proof.Machine

/-! ## Helpers -/

/-- The parameters of the vectors. -/
def dflt : Params := Params.default
def wrap8 : Params := { dflt with arith := .wrap8 }
def addrWrap : Params := { dflt with addr := .wrap }
def lazily : Params := { dflt with lookahead := .lazy }
def flagsFault : Params := { dflt with flagsUnset := .fault }

/-- The reset state under `p` with `pc` moved and the three bytes placed there. -/
def start (p : Params) (pc : Int) (b0 b1 b2 : Nat) : State :=
  ({ State.resetWith p with pc := pc } : State).withFetchWord 24 (b0 + 256 * b1 + 65536 * b2)

def setReg (s : State) (i : Fin 8) (v : Int) : State := { s with regs := s.regs.set i v }
def setMem (s : State) (a : Nat) (v : Int) : State := { s with mem := s.mem.write a v }
def setFl (s : State) (f : Flag) : State := { s with fl := f }

/-- The outcome is a next state of which `q` holds. -/
def nextIs (o : Host.Outcome State Fault Refusal) (q : State → Bool) : Bool :=
  match o with
  | .next t => q t
  | .fault _ => false
  | .refused _ => false

/-- `s` after its current instruction raised `c` is the whole next state. -/
def faultsWith (s : State) (c : Cause) : Bool := nextIs (step s) (fun t => decide (t = s.faultedWith c))

/-! ## WellFormed: a well-formed term, and an ill-formed one for each check -/

theorem test_wf_accepts : (Instr.ldi (.cell 7) (.cell 255)).wellFormed = true := by decide
theorem test_wf_register_high : (Instr.prn (.cell 8)).wellFormed = false := by decide
theorem test_wf_register_negative : (Instr.jmp (.cell (-1))).wellFormed = false := by decide
theorem test_wf_register_absent : (Instr.call (.absent 256)).wellFormed = false := by decide
theorem test_wf_second_register : (Instr.add (.cell 0) (.cell 8)).wellFormed = false := by decide
theorem test_wf_first_register : (Instr.cmp (.cell 9) (.cell 0)).wellFormed = false := by decide
theorem test_wf_immediate_high : (Instr.ldi (.cell 0) (.cell 256)).wellFormed = false := by decide
theorem test_wf_immediate_negative : (Instr.ldi (.cell 0) (.cell (-1))).wellFormed = false := by decide
theorem test_wf_immediate_absent : (Instr.ldi (.cell 0) (.absent 256)).wellFormed = false := by decide

/-! ## Decoding: one word per constructor, written out from 30_encoding.md R71 and R72 -/

theorem test_decode_hlt : decode [0b00000001] = .ok (.hlt, []) := rfl
theorem test_decode_ldi : decode [0b10000010, 0b00000011, 0b11111111] = .ok (.ldi (.cell 3) (.cell 255), []) := rfl
theorem test_decode_prn : decode [0b01000111, 0b00000111] = .ok (.prn (.cell 7), []) := rfl
theorem test_decode_add : decode [0b10100000, 0b00000000, 0b00000001] = .ok (.add (.cell 0) (.cell 1), []) := rfl
theorem test_decode_mul : decode [0b10100010, 0b00000010, 0b00000101] = .ok (.mul (.cell 2) (.cell 5), []) := rfl
theorem test_decode_push : decode [0b01000101, 0b00000110] = .ok (.push (.cell 6), []) := rfl
theorem test_decode_pop : decode [0b01000110, 0b00000001] = .ok (.pop (.cell 1), []) := rfl
theorem test_decode_call : decode [0b01010000, 0b00000001] = .ok (.call (.cell 1), []) := rfl
theorem test_decode_ret : decode [0b00010001, 7] = .ok (.ret, [7]) := rfl
theorem test_decode_cmp : decode [0b10100111, 0b00000000, 0b00000010] = .ok (.cmp (.cell 0) (.cell 2), []) := rfl
theorem test_decode_jmp : decode [0b01010100, 0b00000010] = .ok (.jmp (.cell 2), []) := rfl
theorem test_decode_jeq : decode [0b01010101, 0b00001001] = .ok (.jeq (.cell 9), []) := rfl
theorem test_decode_jne : decode [0b01010110, 0b00000011] = .ok (.jne (.cell 3), []) := rfl
/-- V121, V123; 30_encoding.md R73: a value above 255 is no opcode. -/
theorem test_decode_unknown : decode [0xA1, 0, 1] = .error (.unknownOpcode 161) ∧
    decode [0xFF] = .error (.unknownOpcode 255) ∧ decode [256 + 0x82, 0, 0] = .error (.unknownOpcode 386) :=
  ⟨rfl, rfl, rfl⟩
theorem test_decode_truncated : decode [0x82, 0] = .error .truncated := rfl
/-- 30_encoding.md R82: the source's own encodings. -/
theorem test_encode_source_example : encode (.ldi (.cell 0) (.cell 8)) = [0x82, 0x00, 0x08] ∧
    encode (.add (.cell 0) (.cell 1)) = [0xA0, 0x00, 0x01] := by decide
/-- The opcode byte is the low byte of a table word, and a short word's operands are zero. -/
theorem test_table_word : decodeTableWord 8 0x82 = some (.ldi (.cell 0) (.cell 0)) ∧
    decodeTableWord 24 0x080382 = some (.ldi (.cell 3) (.cell 8)) ∧ decodeTableWord 8 0xA1 = none := by decide

/-! ## One step of each instruction -/

/-- V1. -/
theorem test_ldi : nextIs (step (start dflt 0 0x82 0 8)) (fun t => t.regs[0] == 8 && t.pc == 3) = true := by decide
/-- V5. -/
theorem test_ldi_sign_extends : nextIs (step (start wrap8 0 0x82 3 0x80)) (fun t => t.regs[3] == -128) = true := by decide
/-- V13. -/
theorem test_prn : nextIs (step (start wrap8 0 0x47 7 0)) (fun t => t.out == [-12] && t.pc == 2) = true := by decide
/-- V15. -/
theorem test_prn_bad_index : faultsWith (start dflt 0 0x47 9 0) (.registerIndexOutOfRange 9) = true := by decide
/-- V21. -/
theorem test_add_unmasked :
    nextIs (step (setReg (setReg (start dflt 0 0xA0 0 1) 0 200) 1 100)) (fun t => t.regs[0] == 300) = true := by decide
/-- V24. -/
theorem test_add_wraps :
    nextIs (step (setReg (setReg (start wrap8 0 0xA0 0 1) 0 (-128)) 1 (-1))) (fun t => t.regs[0] == 127) = true := by decide
/-- V35. -/
theorem test_mul_signed :
    nextIs (step (setReg (setReg (start wrap8 0 0xA2 0 1) 0 (-3)) 1 5)) (fun t => t.regs[0] == -15) = true := by decide
/-- V37. -/
theorem test_mul_square :
    nextIs (step (setReg (start dflt 0 0xA2 3 3) 3 12)) (fun t => t.regs[3] == 144 && t.pc == 3) = true := by decide
/-- V46. -/
theorem test_cmp_signed : nextIs (step (setReg (start dflt 0 0xA7 7 0) 7 (-1))) (fun t => t.fl == .less) = true := by decide
/-- V44 and V45. -/
theorem test_cmp_mode :
    nextIs (step (setReg (setReg (start dflt 0 0xA7 0 1) 0 200) 1 100)) (fun t => t.fl == .greater) = true ∧
    nextIs (step (setReg (setReg (start wrap8 0 0xA7 0 1) 0 (-56)) 1 100)) (fun t => t.fl == .less) = true := by decide
/-- V51. -/
theorem test_push_sp_is_old :
    nextIs (step (start dflt 0 0x45 7 0)) (fun t => t.regs[7] == 243 && t.mem.read 243 == 244) = true := by decide
/-- V52. -/
theorem test_push_below_zero : faultsWith (setReg (start dflt 0 0x45 0 0) 7 0) (.addressOutOfRange (-1)) = true := by decide
/-- V60. -/
theorem test_pop : nextIs (step (setMem (setReg (start dflt 0 0x46 1 0) 7 243) 243 17))
    (fun t => t.regs[1] == 17 && t.regs[7] == 244 && t.mem.read 243 == 17) = true := by decide
/-- V61. -/
theorem test_pop_sp_keeps_value :
    nextIs (step (setMem (setReg (start dflt 0 0x46 7 0) 7 243) 243 64)) (fun t => t.regs[7] == 64) = true := by decide
/-- V70. -/
theorem test_call : nextIs (step (setReg (start dflt 6 0x50 1 0) 1 20))
    (fun t => t.pc == 20 && t.regs[7] == 243 && t.mem.read 243 == 8) = true := by decide
/-- V71. -/
theorem test_call_sp_is_new : nextIs (step (start dflt 6 0x50 7 0)) (fun t => t.pc == 243) = true := by decide
/-- V77. -/
theorem test_ret : nextIs (step (setMem (setReg (start dflt 30 0x11 0 0) 7 243) 243 8))
    (fun t => t.pc == 8 && t.regs[7] == 244) = true := by decide
/-- V79. -/
theorem test_ret_bad_sp : faultsWith (setReg (start dflt 30 0x11 0 0) 7 (-1)) (.addressOutOfRange (-1)) = true := by decide
/-- V91. -/
theorem test_jmp_out_of_range :
    nextIs (step (setReg (start dflt 10 0x54 2 0) 2 300)) (fun t => t.pc == 300 && t.status == .running) = true := by decide
/-- V94 and V97. -/
theorem test_jeq : nextIs (step (setFl (setReg (start dflt 10 0x55 3 0) 3 40) .equal)) (fun t => t.pc == 40) = true ∧
    nextIs (step (setReg (start dflt 10 0x55 3 0) 3 40)) (fun t => t.pc == 12) = true := by decide
/-- V99 and V134. -/
theorem test_jeq_index_and_flags :
    nextIs (step (setFl (start dflt 10 0x55 9 0) .less)) (fun t => t.pc == 12 && t.status == .running) = true ∧
    faultsWith (start flagsFault 0 0x55 9 0) .flagsUnset = true := by decide
/-- V101 and V104. -/
theorem test_jne : nextIs (step (setFl (setReg (start dflt 10 0x56 3 0) 3 40) .equal)) (fun t => t.pc == 12) = true ∧
    nextIs (step (setReg (start dflt 10 0x56 3 0) 3 40)) (fun t => t.pc == 40) = true := by decide
/-- V107. -/
theorem test_jne_bad_index : faultsWith (setFl (start dflt 10 0x56 9 0) .less) (.registerIndexOutOfRange 9) = true := by
  decide
/-- V110. -/
theorem test_hlt :
    nextIs (step (start dflt 20 0x01 0 0)) (fun t => t.status == .halted && t.pc == 20) = true := by decide
/-- V111, V113 and V115. -/
theorem test_hlt_at_the_top : faultsWith (start dflt 254 0x01 0 0) (.addressOutOfRange 256) = true ∧
    nextIs (step (start lazily 255 0x01 0 0)) (fun t => t.status == .halted) = true ∧
    nextIs (step (start wrap8 255 0x01 0 0)) (fun t => t.status == .halted) = true := by decide

/-! ## The cycle and the host interface -/

/-- V120 and V122. -/
theorem test_unknown_opcode : faultsWith (start dflt 4 0 0 0) (.unknownOpcode 0) = true ∧
    nextIs (step (start { dflt with unlisted := [0xA1] } 4 0xA1 0 1)) (fun t => t.status == .refused 161 4) = true := by decide
/-- V130 and V132: the look-ahead before the index, the first index before the second. -/
theorem test_fault_priority : faultsWith (start dflt 254 0xA7 9 0) (.addressOutOfRange 256) = true ∧
    faultsWith (start dflt 0 0xA0 9 8) (.registerIndexOutOfRange 9) = true := by decide
/-- V9 and V118. -/
theorem test_fetch_edges : faultsWith (start lazily 254 0x82 0 0) (.addressOutOfRange 256) = true ∧
    nextIs (step (start addrWrap 256 0x01 0 0)) (fun t => t.status == .halted && t.pc == 256) = true := by decide
/-- 40_fetch_decode_execute.md R107. -/
theorem test_no_cycle_after_halt : step ({ State.reset with status := .halted } : State) = .fault (.runEnded .halted) := rfl
/-- The word placed is what the first step after reset runs. -/
theorem test_fetch_word_runs : nextIs (step (State.reset.withFetchWord 24 0x080082)) (fun t => t.regs[0] == 8) = true := by
  decide
/-- 70_reset_and_hazards.md R192. -/
theorem test_load : (match startWith dflt [0x82, 0x00, 0x08] with
    | .ok s => s.mem == [(0, 0x82), (2, 8)]
    | .error _ => false) = true := by decide
/-- 43_register_io.md R142: V11 and V13. -/
theorem test_prn_line : prnLine 17 = "17\n" ∧ prnLine (-12) = "-12\n" := by decide
/-- 60_exceptions.md R178. -/
theorem test_codes : Status.code .halted = some 0 ∧ Status.code (.faulted (.unknownOpcode 161) 5) = some 1 ∧
    Status.code (.faulted .flagsUnset 0) = some 5 ∧ Status.code (.refused 161 5) = some 6 ∧
    LoadError.imageTooLong.code = 19 := by decide
/-- 10_state.md R29. -/
theorem test_flag_bits : Flag.bits .less = 0b100 ∧ Flag.bits .greater = 0b010 ∧ Flag.bits .equal = 0b001 ∧
    Flag.bits .none = 0b000 := by decide
/-- Writing what an unlisted cell reads as removes the entry. -/
theorem test_memory_canonical : Memory.write [(3, 5), (7, 1)] 3 0 = [(7, 1)] ∧ Memory.wf [(3, 5), (7, 1)] = true ∧
    Memory.wf [(7, 1), (3, 5)] = false ∧ Memory.wf [(3, 0)] = false ∧ Memory.wf [(256, 1)] = false := by decide

/-! ## Witnesses: a concrete state and operands that meet the hypotheses of each statement, clause by clause, at the
boundaries where clauses meet -/

/-- Both `ARITH` settings, at the values where the signed byte and the unsigned byte wrap. -/
theorem witness_WidthPrimitives : dflt.arith = .reference ∧ wrap8.arith = .wrap8 ∧ dflt.wr 256 = 256 ∧
    wrap8.wr 127 = 127 ∧ wrap8.wr 128 = -128 ∧ wrap8.wr 255 = -1 ∧ wrap8.cell (-1) = 255 ∧ wrap8.cell 256 = 0 ∧
    wrap8.tgt 255 = 255 ∧ wrap8.tgt 256 = 0 := by decide

/-- The four cases of `A`, on both sides of each end of the address space. -/
theorem witness_AddressConversion : address wrap8 (-12) = .ok 244 ∧ address dflt 0 = .ok 0 ∧ address dflt 255 = .ok 255 ∧
    address addrWrap 256 = .ok 0 ∧ address addrWrap (-1) = .ok 255 ∧
    address dflt 256 = .error (.addressOutOfRange 256) ∧ address dflt (-1) = .error (.addressOutOfRange (-1)) :=
  ⟨rfl, rfl, rfl, rfl, rfl, rfl, rfl⟩

/-- Indexes 7, 8 and -1. -/
theorem witness_RegisterIndexChecked : registerIndex 7 = .ok 7 ∧ BadIndex 8 ∧ BadIndex (-1) ∧ ¬ BadIndex 0 ∧ ¬ BadIndex 7 :=
  ⟨rfl, by decide, by decide, by decide, by decide⟩

/-- A byte beside an opcode, and an opcode plus 256, equal no row. -/
theorem witness_OpcodeTable : dispatch 0x57 (.cell 0) (.cell 0) = none ∧ dispatch (256 + 0x82) (.cell 0) (.cell 0) = none := by
  decide

/-- An N row, an R row, and both strict look-ahead faults. -/
theorem witness_UnusedBytesHaveNoEffect :
    (Mnemonic.ofOpcode 0x11 = some .ret ∧ Mnemonic.ret.format = .n) ∧
    (Mnemonic.ofOpcode 0x56 = some .jne ∧ Mnemonic.jne.format = .r) ∧
    (∃ s : State, s.status = .running ∧ s.params.lookahead = .strict ∧ address s.params s.pc = .ok 255 ∧
      address s.params (s.pc + 1) = .error (.addressOutOfRange 256)) ∧
    (∃ s : State, s.status = .running ∧ s.params.lookahead = .strict ∧ address s.params s.pc = .ok 254 ∧
      address s.params (s.pc + 1) = .ok 255 ∧ address s.params (s.pc + 2) = .error (.addressOutOfRange 256)) :=
  ⟨by decide, by decide, ⟨start dflt 255 0x11 0 0, rfl, rfl, rfl, rfl⟩, ⟨start dflt 254 0x11 0 0, rfl, rfl, rfl, rfl, rfl⟩⟩

/-- A well-formed instruction with both fields at their greatest value. -/
theorem witness_DecodeOfEncode : (Instr.ldi (.cell 7) (.cell 255)).wellFormed = true := by decide

/-- Program bytes with register bytes that name no register. -/
theorem witness_EncodeOfDecode :
    decode (([0xA0, 0x09, 0xFF, 0x01] : List Byte).map Byte.value) = .ok (.add (.cell 9) (.cell 255), [1]) := rfl

/-- A state whose cells decode, with the last cell of memory as the last operand. -/
theorem witness_StepRunsDecoded : ∃ s : State, s.status = .running ∧
    fetch s = .ok (0xA0, .cell 0, .cell 1) ∧ dispatch 0xA0 (.cell 0) (.cell 1) = some (.add (.cell 0) (.cell 1)) ∧
    address s.params s.pc = .ok 253 ∧ address s.params (s.pc + 1) = .ok 254 ∧ address s.params (s.pc + 2) = .ok 255 ∧
    decode [s.mem.read 253, s.mem.read 254, s.mem.read 255] = .ok (.add (.cell 0) (.cell 1), []) :=
  ⟨start dflt 253 0xA0 0 1, rfl, rfl, rfl, rfl, rfl, rfl, rfl⟩

/-- The fetch at 253, 254, 255 and 256, strict and lazy. -/
theorem witness_FetchReadsThreeCells :
    fetch (start dflt 253 0x82 0 5) = .ok (0x82, .cell 0, .cell 5) ∧
    address dflt (start dflt 256 0 0 0).pc = .error (.addressOutOfRange 256) ∧
    fetch (start dflt 255 0x11 0 0) = .error (.addressOutOfRange 256) ∧
    fetch (start dflt 254 0x11 0 0) = .error (.addressOutOfRange 256) ∧
    fetch (start lazily 255 0x11 0 0) = .ok (0x11, .absent 256, .absent 257) :=
  ⟨rfl, rfl, rfl, rfl, rfl⟩

/-- An unrecognised opcode outside `UNLISTED`, and one in it. -/
theorem witness_UnrecognisedOpcodeEndsRun :
    (∃ s : State, s.status = .running ∧ fetch s = .ok (0, .cell 0, .cell 0) ∧ dispatch 0 (.cell 0) (.cell 0) = none ∧
      ∀ b ∈ s.params.unlisted, (b.toNat : Int) ≠ 0) ∧
    (∃ s : State, s.status = .running ∧ fetch s = .ok (255, .cell 0, .cell 0) ∧
      dispatch 255 (.cell 0) (.cell 0) = none ∧ ∃ b ∈ s.params.unlisted, (b.toNat : Int) = 255) :=
  ⟨⟨start dflt 0 0 0 0, rfl, rfl, rfl, by decide⟩,
   ⟨start { dflt with unlisted := [0xFF] } 0 0xFF 0 0, rfl, rfl, rfl, 0xFF, by decide, by decide⟩⟩

/-- A running state that steps, one about to halt, and one that has ended. -/
theorem witness_StatusTransitions :
    (∃ t, step (start dflt 0 0x82 0 8) = .next t) ∧
    ((start dflt 0 0x01 0 0).status = .running ∧ fetch (start dflt 0 0x01 0 0) = .ok (1, .cell 0, .cell 0) ∧
      dispatch 1 (.cell 0) (.cell 0) = some .hlt) ∧
    (∃ s : State, s.status ≠ .running) :=
  ⟨⟨_, rfl⟩, ⟨rfl, rfl, rfl⟩, ⟨{ State.reset with status := .halted }, by decide⟩⟩

/-- A PUSH with SP at 0: the step whose partial writes would show. -/
theorem witness_FaultCommitsNothing :
    ∃ t, step (setReg (start dflt 0 0x45 0 0) 7 0) = .next t ∧ t.status = .faulted (.addressOutOfRange (-1)) 0 :=
  ⟨_, rfl, rfl⟩

/-- The last address at which a strict fetch succeeds. -/
theorem witness_LazyAgreesWhereStrictFetches : (start dflt 253 0x82 0 5).params.lookahead = .strict ∧
    (start dflt 253 0x82 0 5).status = .running ∧ fetch (start dflt 253 0x82 0 5) = .ok (0x82, .cell 0, .cell 5) ∧
    ∃ t, step (start dflt 253 0x82 0 5) = .next t :=
  ⟨rfl, rfl, rfl, _, rfl⟩

/-- A store onto the cell at `pc` of a value that is no byte. -/
theorem witness_FetchSeesEarlierStore : (start dflt 0 0 0 0).mem.wf = true ∧ address dflt (start dflt 0 0 0 0).pc = .ok 0 ∧
    fetch ((start dflt 0 0 0 0).store 0 300) = .ok (300, .cell 0, .cell 0) :=
  ⟨rfl, rfl, rfl⟩

/-- For the two-register forms: indexes that exist and do not, and a fetch that raises. -/
theorem witness_AddWritesSum : BadIndex 8 ∧ (start dflt 254 0xA0 0 0).status = .running ∧
    fetch (start dflt 254 0xA0 0 0) = .error (.addressOutOfRange 256) :=
  ⟨by decide, rfl, rfl⟩
theorem witness_MulWritesProduct : BadIndex (-1) ∧ (start dflt 255 0xA2 0 0).status = .running ∧
    fetch (start dflt 255 0xA2 0 0) = .error (.addressOutOfRange 256) :=
  ⟨by decide, rfl, rfl⟩
theorem witness_CmpSetsExactlyOneFlag : BadIndex 255 ∧ (start dflt 254 0xA7 9 0).status = .running ∧
    fetch (start dflt 254 0xA7 9 0) = .error (.addressOutOfRange 256) :=
  ⟨by decide, rfl, rfl⟩

/-- SP at 1, whose push goes to cell 0, and SP at 0, whose push has no cell. -/
theorem witness_PushHelper :
    address dflt (dflt.wr ((setReg State.reset 7 1).regs[spIndex] - 1)) = .ok 0 ∧ State.reset.mem.wf = true ∧
    address dflt (dflt.wr ((setReg State.reset 7 0).regs[spIndex] - 1)) = .error (.addressOutOfRange (-1)) :=
  ⟨rfl, rfl, rfl⟩

/-- SP at 255, the last cell, and SP at 256, which has no cell. -/
theorem witness_PopHelper : address dflt (setReg State.reset 7 255).regs[spIndex] = .ok 255 ∧
    address dflt (setReg State.reset 7 256).regs[spIndex] = .error (.addressOutOfRange 256) :=
  ⟨rfl, rfl⟩

theorem witness_PushStoresRegister :
    address dflt (dflt.wr ((setReg (start dflt 0 0x45 0 0) 7 256).regs[spIndex] - 1)) = .ok 255 ∧
    address dflt (dflt.wr ((setReg (start dflt 0 0x45 0 0) 7 257).regs[spIndex] - 1)) = .error (.addressOutOfRange 256) ∧
    BadIndex 8 ∧ fetch (start dflt 254 0x45 0 0) = .error (.addressOutOfRange 256) :=
  ⟨rfl, rfl, by decide, rfl⟩
theorem witness_PopWritesRegister :
    address dflt (setReg (start dflt 0 0x46 7 0) 7 0).regs[spIndex] = .ok 0 ∧
    address dflt (setReg (start dflt 0 0x46 7 0) 7 (-1)).regs[spIndex] = .error (.addressOutOfRange (-1)) ∧
    BadIndex 8 ∧ (0 : Fin 8) ≠ spIndex ∧ fetch (start dflt 255 0x46 0 0) = .error (.addressOutOfRange 256) :=
  ⟨rfl, rfl, by decide, by decide, rfl⟩
theorem witness_LdiLoadsImmediate : BadIndex 8 ∧ (start dflt 254 0x82 0 0).status = .running ∧
    fetch (start dflt 254 0x82 0 0) = .error (.addressOutOfRange 256) ∧
    fetch (start lazily 254 0x82 0 0) = .ok (0x82, .cell 0, .absent 256) :=
  ⟨by decide, rfl, rfl, rfl⟩
theorem witness_PrnEmitsRegister : BadIndex 9 ∧ (start dflt 254 0x47 0 0).status = .running ∧
    fetch (start dflt 254 0x47 0 0) = .error (.addressOutOfRange 256) :=
  ⟨by decide, rfl, rfl⟩
theorem witness_HltStopsTheRun : ∃ t, exec .hlt (start dflt 20 0x01 0 0) = .next t := ⟨_, rfl⟩
theorem witness_CallPushesThenJumps :
    address dflt (dflt.wr ((setReg (start dflt 6 0x50 7 0) 7 1).regs[spIndex] - 1)) = .ok 0 ∧
    address dflt (dflt.wr ((setReg (start dflt 6 0x50 7 0) 7 0).regs[spIndex] - 1)) = .error (.addressOutOfRange (-1)) ∧
    BadIndex 8 ∧ fetch (start dflt 254 0x50 0 0) = .error (.addressOutOfRange 256) :=
  ⟨rfl, rfl, by decide, rfl⟩
theorem witness_RetPopsTarget :
    address dflt (setReg (start dflt 30 0x11 0 0) 7 255).regs[spIndex] = .ok 255 ∧
    address dflt (setReg (start dflt 30 0x11 0 0) 7 256).regs[spIndex] = .error (.addressOutOfRange 256) ∧
    fetch (start dflt 254 0x11 0 0) = .error (.addressOutOfRange 256) :=
  ⟨rfl, rfl, rfl⟩
theorem witness_JmpJumpsToRegister : BadIndex 8 ∧ (start dflt 254 0x54 0 0).status = .running ∧
    fetch (start dflt 254 0x54 0 0) = .error (.addressOutOfRange 256) :=
  ⟨by decide, rfl, rfl⟩

/-- The four values of `fl`, and both settings of `FLAGS_UNSET`. -/
theorem witness_JeqJumpsOnEqual : (setFl (start dflt 10 0x55 3 0) .equal).fl = .equal ∧
    (setFl (start dflt 10 0x55 9 0) .less).fl = .less ∧ (setFl (start dflt 10 0x55 9 0) .greater).fl = .greater ∧
    ((start dflt 10 0x55 3 0).fl = .none ∧ (start dflt 10 0x55 3 0).params.flagsUnset = .notEqual) ∧
    ((start flagsFault 10 0x55 3 0).fl = .none ∧ (start flagsFault 10 0x55 3 0).params.flagsUnset = .fault) ∧
    BadIndex 9 ∧ fetch (start dflt 255 0x55 0 0) = .error (.addressOutOfRange 256) :=
  ⟨rfl, rfl, rfl, ⟨rfl, rfl⟩, ⟨rfl, rfl⟩, by decide, rfl⟩
theorem witness_JneJumpsUnlessEqual : (setFl (start dflt 10 0x56 3 0) .equal).fl = .equal ∧
    (setFl (start dflt 10 0x56 9 0) .less).fl = .less ∧ (setFl (start dflt 10 0x56 9 0) .greater).fl = .greater ∧
    ((start dflt 10 0x56 3 0).fl = .none ∧ (start dflt 10 0x56 3 0).params.flagsUnset = .notEqual) ∧
    ((start flagsFault 10 0x56 3 0).fl = .none ∧ (start flagsFault 10 0x56 3 0).params.flagsUnset = .fault) ∧
    BadIndex 9 ∧ fetch (start dflt 255 0x56 0 0) = .error (.addressOutOfRange 256) :=
  ⟨rfl, rfl, rfl, ⟨rfl, rfl⟩, ⟨rfl, rfl⟩, by decide, rfl⟩

/-- A sum and a product under each `ARITH`, both past the signed byte. -/
theorem witness_ArithmeticWidth :
    (∃ t, exec (.add (regOp 0) (regOp 1)) (setReg (setReg (start wrap8 0 0xA0 0 1) 0 127) 1 1) = .next t) ∧
    (∃ t, exec (.mul (regOp 0) (regOp 1)) (setReg (setReg (start dflt 0 0xA2 0 1) 0 255) 1 255) = .next t) :=
  ⟨⟨_, rfl⟩, ⟨_, rfl⟩⟩

/-- Each form of the frame, with a register that is not its destination, and a faulting form. -/
theorem witness_RegisterResultFrame : (∃ t, exec (.add (regOp 7) (regOp 0)) State.reset = .next t) ∧
    (∃ t, exec (.mul (regOp 0) (regOp 0)) State.reset = .next t) ∧
    (∃ t, exec (.ldi (regOp 0) (.cell 300)) State.reset = .next t) ∧
    (∃ t, exec (.add (.cell 8) (regOp 0)) State.reset = .next t) ∧ regOp 7 ≠ regOp 6 :=
  ⟨⟨_, rfl⟩, ⟨_, rfl⟩, ⟨_, rfl⟩, ⟨_, rfl⟩, by decide⟩
theorem witness_NoRegisterResultFrame : (∃ t, exec (.cmp (regOp 0) (regOp 1)) State.reset = .next t) ∧
    (∃ t, exec (.prn (regOp 7)) State.reset = .next t) ∧ (∃ t, exec (.jmp (regOp 7)) State.reset = .next t) ∧
    (∃ t, exec (.jeq (.cell 9)) State.reset = .next t) ∧ (∃ t, exec (.jne (.cell 9)) State.reset = .next t) ∧
    (∃ t, exec .hlt State.reset = .next t) :=
  ⟨⟨_, rfl⟩, ⟨_, rfl⟩, ⟨_, rfl⟩, ⟨_, rfl⟩, ⟨_, rfl⟩, ⟨_, rfl⟩⟩
theorem witness_PoppingFrame : (∃ t, exec (.pop (regOp 0)) State.reset = .next t) ∧ (∃ t, exec .ret State.reset = .next t) ∧
    regOp 0 ≠ regOp 6 ∧ (6 : Fin 8) ≠ spIndex :=
  ⟨⟨_, rfl⟩, ⟨_, rfl⟩, by decide, by decide⟩
theorem witness_PushingFrame : (∃ t, exec (.push (regOp 7)) State.reset = .next t) ∧
    (∃ t, exec (.call (regOp 7)) State.reset = .next t) ∧
    address dflt (dflt.wr (State.reset.regs[spIndex] - 1)) = .ok 243 ∧
    (∃ t, exec (.push (regOp 0)) (setReg State.reset 7 0) = .next t) ∧
    address dflt (dflt.wr ((setReg State.reset 7 0).regs[spIndex] - 1)) = .error (.addressOutOfRange (-1)) :=
  ⟨⟨_, rfl⟩, ⟨_, rfl⟩, rfl, ⟨_, rfl⟩, rfl⟩

/-- CMP with `fl` changed before it, and an instruction that is none of CMP, JEQ and JNE. -/
theorem witness_FlagsWriterAndReaders : (∃ t, exec (.cmp (regOp 0) (regOp 1)) State.reset = .next t ∧ t.status = .running) ∧
    (∃ t, exec (.pop (regOp 7)) State.reset = .next t) :=
  ⟨⟨_, rfl, rfl⟩, ⟨_, rfl⟩⟩

/-- A PRN, a PRN that faults, and another instruction. -/
theorem witness_OutputOnlyByPrn : (∃ t, step (start dflt 0 0x47 7 0) = .next t ∧ t.out = [244]) ∧
    (∃ t, step (start dflt 0 0x47 8 0) = .next t ∧ t.out = []) ∧ (∃ t, step (start dflt 0 0x82 0 8) = .next t ∧ t.out = []) :=
  ⟨⟨_, rfl, rfl⟩, ⟨_, rfl, rfl⟩, ⟨_, rfl, rfl⟩⟩

/-- A PUSH and a CALL that change the cell below the stack start. -/
theorem witness_MemoryOnlyByPushAndCall :
    nextIs (step (start dflt 0 0x45 7 0)) (fun t => t.mem.read 243 != (start dflt 0 0x45 7 0).mem.read 243) = true ∧
    nextIs (step (start dflt 0 0x50 7 0)) (fun t => t.mem.read 243 != (start dflt 0 0x50 7 0).mem.read 243) = true := by
  decide

theorem witness_UnsupportedAluOpUnreachable : ∃ t, step (start dflt 0 0xA1 0 1) = .next t := ⟨_, rfl⟩

theorem witness_FlagsUnsetOnlyWhenAsked : ∃ t, step (start flagsFault 10 0x56 3 0) = .next t ∧
    t.status = .faulted .flagsUnset 10 :=
  ⟨_, rfl, rfl⟩

/-- `wrap8` and `ADDR = wrap`, each at an access that would fault by default. -/
theorem witness_WrappedAddressesNeverFault :
    (wrap8.arith = .wrap8 ∧ ∃ t, step (setReg (start wrap8 255 0x45 0 0) 7 0) = .next t) ∧
    (addrWrap.addr = .wrap ∧ ∃ t, step (setReg (start addrWrap 255 0x45 0 0) 7 0) = .next t) :=
  ⟨⟨rfl, _, rfl⟩, ⟨rfl, _, rfl⟩⟩

/-- `PUSH R0; POP R1` with -128 in R0 under `wrap8` (V68). -/
theorem witness_PushPopRoundTrip : (setReg (start wrap8 0 0x45 0 0) 0 (-128)).Inv ∧ (1 : Fin 8) ≠ spIndex ∧
    (setReg (start wrap8 0 0x45 0 0) 0 (-128)).status = .running ∧
    ∃ t, exec (.push (regOp 0)) (setReg (start wrap8 0 0x45 0 0) 0 (-128)) = .next t ∧ t.status = .running :=
  ⟨by decide, by decide, rfl, _, rfl, rfl⟩

/-- A CALL at 6 and the state it leaves as the one its RET finds (V70, V77). -/
theorem witness_CallRetLaw : (setReg (start dflt 6 0x50 1 0) 1 20).Inv ∧ (setReg (start dflt 6 0x50 1 0) 1 20).status = .running ∧
    ∃ t u : State, exec (.call (regOp 1)) (setReg (start dflt 6 0x50 1 0) 1 20) = .next t ∧ t.status = .running ∧
      u.params = dflt ∧ u.regs[spIndex] = t.regs[spIndex] ∧
      ∀ ad, address t.params t.regs[spIndex] = .ok ad → u.mem.read ad = t.mem.read ad :=
  ⟨by decide, rfl, _, _, rfl, rfl, rfl, rfl, fun _ _ => rfl⟩

/-- V108, and under `wrap8` a jump to 255 through a register that holds -1. -/
theorem witness_JumpToSelfNeverEnds :
    (fetch (setReg (start dflt 10 0x54 0 0) 0 10) = .ok (0x54, regOp 0, .cell 0) ∧ dflt.tgt 10 = 10) ∧
    (fetch (setReg (start wrap8 255 0x54 0 0) 0 (-1)) = .ok (0x54, regOp 0, .cell 0) ∧ wrap8.tgt (-1) = 255) :=
  ⟨⟨rfl, rfl⟩, ⟨rfl, rfl⟩⟩

theorem witness_ResetValues : dflt.arith = .reference ∧ wrap8.arith = .wrap8 ∧ (0 : Fin 8) ≠ spIndex := by decide

/-- The longest image that loads and the shortest that does not. -/
theorem witness_LoadPlacesImage : State.reset.mem.wf = true ∧ (List.replicate 256 (0x01 : Byte)).length ≤ 256 ∧
    256 < (List.replicate 257 (0x01 : Byte)).length ∧ (List.replicate 256 (0x01 : Byte))[255]? = some 0x01 :=
  ⟨rfl, by rw [List.length_replicate], by rw [List.length_replicate]; decide, by rw [List.getElem?_replicate]; rfl⟩

theorem witness_ResetMeetsInvariant : paramsOk { wrap8 with unlisted := [0x00, 0xA1, 0xFF] } = true ∧
    ∃ t, (State.resetWith wrap8).loadImage [0x01] = .ok t :=
  ⟨by decide, _, rfl⟩

/-- A step under `wrap8` from a state that meets the invariant, and one by default. -/
theorem witness_StepKeepsInvariant : ((start wrap8 255 0x45 7 0).Inv ∧ ∃ t, step (start wrap8 255 0x45 7 0) = .next t) ∧
    ((start dflt 0 0x45 7 0).Inv ∧ ∃ t, step (start dflt 0 0x45 7 0) = .next t) :=
  ⟨⟨by decide, _, rfl⟩, ⟨by decide, _, rfl⟩⟩

theorem witness_RunKeepsInvariant : (start dflt 0 0x47 7 0x01).Inv ∧
    ∃ t, Host.Core.run core 2 (start dflt 0 0x47 7 0x01) = .next t :=
  ⟨by decide, _, rfl⟩

end Sys2Proof.Tests
end

section
/-! Proofs of the statements about 00_scope.md: the width primitives, the address and register-index conversions, and
what a fault leaves behind. -/

namespace Sys2Proof.Machine

/-! ## The width primitives -/

/-- Settles O1, from the range and the remainder of each primitive under `wrap8`. -/
theorem widthPrimitives : Obligations.WidthPrimitives := by
  intro p v
  refine ⟨fun h => ⟨p.wr_reference h v, p.cell_reference h v, p.tgt_reference h v⟩, fun h => ⟨?wr, ?cell, ?tgt⟩⟩
  case wr =>
    have hmod : p.wr v % 256 = v % 256 := by rw [p.wr_wrap8 h, sext8_mod, Int.emod_emod]
    exact ⟨(p.wr_range h v).1, (p.wr_range h v).2, hmod⟩
  case cell =>
    have hmod : p.cell v % 256 = v % 256 := by rw [p.cell_wrap8 h, Int.emod_emod]
    exact ⟨(p.cell_range h v).1, (p.cell_range h v).2, hmod⟩
  case tgt =>
    have hmod : p.tgt v % 256 = v % 256 := by rw [p.tgt_wrap8 h, Int.emod_emod]
    exact ⟨(p.tgt_range h v).1, (p.tgt_range h v).2, hmod⟩

/-! ## Address and register-index conversion -/

/-- The one way `A(v)` raises (00_scope.md R11); the converse of `address_error`. -/
theorem address_eq_error {p : Params} {v : Int} (ha : p.arith = .reference) (hd : p.addr = .fault)
    (hv : v < 0 ∨ 255 < v) : address p v = .error (.addressOutOfRange v) := by
  have hout : ¬ (0 ≤ v ∧ v ≤ 255) := by omega
  simp only [address, ha, hd, if_neg hout]

/-- Wherever `A(v)` does not raise, it answers `v` modulo 256 (00_scope.md R11). -/
theorem exists_address_eq_ok {p : Params} {v : Int}
    (h : ¬ (p.arith = .reference ∧ p.addr = .fault ∧ (v < 0 ∨ 255 < v))) :
    ∃ a : Nat, address p v = .ok a ∧ (a : Int) = v % 256 := by
  cases hr : address p v with
  | ok a => exact ⟨a, rfl, address_ok hr⟩
  | error c => exact absurd (address_error hr).2 h

/-- Settles O2: in the first three cases `A(v)` is `v` modulo 256 because it does not raise. -/
theorem addressConversion : Obligations.AddressConversion := by
  intro p v
  refine ⟨fun ha => ?wrap8, fun _ h0 h1 => ?inRange, fun _ _ hd => ?wrap, fun ha hv hd => address_eq_error ha hd hv⟩
  case wrap8 => exact exists_address_eq_ok (by simp [ha])
  case inRange =>
    have hmod : v % 256 = v := Int.emod_eq_of_lt h0 (by omega)
    obtain ⟨a, hok, hval⟩ := exists_address_eq_ok (p := p) (v := v) (by omega)
    exact ⟨a, hok, hval.trans hmod⟩
  case wrap => exact exists_address_eq_ok (by simp [hd])

/-- Settles O3, by the two laws of `Ridx`. -/
theorem registerIndexChecked : Obligations.RegisterIndexChecked :=
  ⟨registerIndex_reg, fun _ hx => registerIndex_bad hx⟩

/-! ## What a fault leaves behind -/

/-- An instruction raises, or it is HLT and halts, or it leaves the status alone. -/
theorem Effect.status_cases {s t : State} {i : Instr} (h : Effect s i t) :
    (∃ c, Raises s i c ∧ t = s.raise c) ∨ (i = .hlt ∧ t = s.halt) ∨ (i ≠ .hlt ∧ t.status = s.status) := by
  cases h with
  | raised _ c hc => exact .inl ⟨c, hc, rfl⟩
  | hlt => exact .inr (.inl ⟨rfl, rfl⟩)
  | _ => exact .inr (.inr ⟨nofun, rfl⟩)

/-- A step that has a next state starts from `Running`, and it raises, refuses, halts or leaves the status at `Running`
(40_fetch_decode_execute.md R107). -/
theorem step_status_cases {s t : State} (h : step s = .next t) :
    s.status = .running ∧
      ((∃ c, t = s.raise c) ∨ (∃ op, t = s.refuse op) ∨ t = s.halt ∨ t.status = .running) := by
  rcases step_cases s with ⟨hr, c, _, hs⟩ | ⟨hr, _, _, _, i, _, _, hs⟩ | ⟨hr, op, _, _, _, _, hs⟩ | ⟨_, hs⟩ <;>
    rw [hs] at h
  case inl => cases h; exact ⟨hr, .inl ⟨c, rfl⟩⟩
  case inr.inl =>
    rcases (exec_effect h).status_cases with ⟨c, _, ht⟩ | ⟨_, ht⟩ | ⟨_, hkeep⟩
    · exact ⟨hr, .inl ⟨c, ht⟩⟩
    · exact ⟨hr, .inr (.inr (.inl ht))⟩
    · exact ⟨hr, .inr (.inr (.inr (hkeep.trans hr)))⟩
  case inr.inr.inl =>
    cases h
    rcases unrecognised_cases s op with ⟨_, hu⟩ | ⟨_, hu⟩
    · exact ⟨hr, .inr (.inl ⟨op, hu⟩)⟩
    · exact ⟨hr, .inl ⟨_, hu⟩⟩
  case inr.inr.inr => cases h

/-- A step that ends in `Faulted(c, p)` has done nothing but raise `c`, at its own `pc` (00_scope.md R13). -/
theorem step_faulted {s t : State} {c : Cause} {p : Int} (h : step s = .next t) (ht : t.status = .faulted c p) :
    p = s.pc ∧ t = s.raise c := by
  obtain ⟨-, ⟨d, rfl⟩ | ⟨op, rfl⟩ | rfl | hrun⟩ := step_status_cases h
  · cases ht; exact ⟨rfl, rfl⟩
  · cases ht
  · cases ht
  · rw [hrun] at ht; cases ht

/-- Settles O13: the step raised, and the state a raise leaves takes no cycle. -/
theorem faultCommitsNothing : Obligations.FaultCommitsNothing := by
  intro s t c p h ht
  obtain ⟨rfl, rfl⟩ := step_faulted h ht
  exact ⟨rfl, rfl, rfl⟩

end Sys2Proof.Machine
end

section
/-! Proofs of the statements about 10_state.md: what each instruction leaves unchanged, who writes the flags and the output,
the state after reset, and the invariant of every step and every run. -/

namespace Sys2Proof.Machine

/-! ## What an instruction leaves unchanged -/

/-- The registers an instruction can write: the destination its operand names, and SP for the stack instructions. -/
def mayWriteReg : Instr → Fin 8 → Prop
  | .ldi a _, j | .add a _, j | .mul a _, j => a = regOp j
  | .pop a, j => a = regOp j ∨ j = spIndex
  | .push _, j | .call _, j | .ret, j => j = spIndex
  | _, _ => False

section
variable {s t : State} {i : Instr}

/-- No instruction changes a parameter (00_scope.md R6). -/
theorem Effect.params_eq (h : Effect s i t) : t.params = s.params := by
  cases h <;> rfl

/-- No instruction sets a flag as a side effect: only CMP writes `fl` (10_state.md R30). -/
theorem Effect.fl_eq (h : Effect s i t) (hcmp : ∀ a b, i ≠ .cmp a b) : t.fl = s.fl := by
  cases h with
  | cmp ra rb => exact absurd rfl (hcmp _ _)
  | _ => rfl

/-- A PRN of a register appends its value to `out`, and nothing else touches `out` (10_state.md R37). -/
theorem Effect.out_cases (h : Effect s i t) :
    t.out = s.out ∨ ∃ r : Fin 8, i = .prn (regOp r) ∧ t.out = s.out ++ [s.regs[r]] := by
  cases h with
  | prn r => exact .inr ⟨r, rfl, rfl⟩
  | _ => exact .inl rfl

theorem Effect.out_eq (h : Effect s i t) (hprn : ∀ a, i ≠ .prn a) : t.out = s.out := by
  rcases h.out_cases with hout | ⟨r, rfl, _⟩
  · exact hout
  · exact absurd rfl (hprn _)

/-- Only HLT ends the run without a fault. -/
theorem Effect.status_eq_or_faulted (h : Effect s i t) (hhlt : i ≠ .hlt) :
    t.status = s.status ∨ ∃ c, t.status = .faulted c s.pc := by
  rcases h.status_cases with ⟨c, _, rfl⟩ | ⟨hi, _⟩ | ⟨_, hkeep⟩
  · exact .inr ⟨c, rfl⟩
  · exact absurd hi hhlt
  · exact .inl hkeep

theorem Effect.regs_eq (h : Effect s i t) {j : Fin 8} (hj : ¬ mayWriteReg i j) : t.regs[j] = s.regs[j] := by
  have operand_ne {r : Fin 8} (hr : ¬ regOp r = regOp j) : r ≠ j := fun heq => hr (heq ▸ rfl)
  cases h with
  | ldi r | add r | mul r => exact regs_set_ne _ _ (operand_ne hj)
  | push | call | ret => exact regs_set_ne _ _ (Ne.symm hj)
  | pop r =>
    obtain ⟨hr, hsp⟩ := not_or.mp hj
    exact (regs_set_ne _ _ (operand_ne hr)).trans (regs_set_ne _ _ (Ne.symm hsp))
  | _ => rfl

/-- Only PUSH and CALL store (20_memory.md R50). -/
theorem Effect.mem_eq (h : Effect s i t) (hpush : ∀ a, i ≠ .push a) (hcall : ∀ a, i ≠ .call a) : t.mem = s.mem := by
  cases h with
  | push => exact absurd rfl (hpush _)
  | call => exact absurd rfl (hcall _)
  | _ => rfl

/-- An instruction changes at most the cell a push goes to (42_stack.md R130). -/
theorem Effect.read_eq (h : Effect s i t) {x : Nat} (hx : address s.params (s.params.wr (s.sp - 1)) ≠ .ok x) :
    t.mem.read x = s.mem.read x := by
  cases h with
  | push r ad had | call r ad had =>
    have hne : x ≠ ad := fun heq => hx (heq ▸ had)
    exact Memory.read_write_ne _ _ hne
  | _ => rfl

/-- What the frames of the instructions other than CMP, PRN and HLT have in common. -/
theorem Effect.frame (h : Effect s i t) (hcmp : ∀ a b, i ≠ .cmp a b) (hprn : ∀ a, i ≠ .prn a) (hhlt : i ≠ .hlt) :
    t.params = s.params ∧ t.fl = s.fl ∧ t.out = s.out ∧ (t.status = s.status ∨ ∃ c, t.status = .faulted c s.pc) :=
  ⟨h.params_eq, h.fl_eq hcmp, h.out_eq hprn, h.status_eq_or_faulted hhlt⟩

end

/-- Settles O32: the destination operand is the only register the three forms can write, and none of them stores. -/
theorem registerResultFrame : Obligations.RegisterResultFrame := by
  intro s t a b h
  obtain ⟨i, he, hi⟩ : ∃ i, Effect s i t ∧ (i = .add a b ∨ i = .mul a b ∨ i = .ldi a b) := by
    rcases h with h | h | h <;> exact ⟨_, exec_effect h, by simp⟩
  have hregs (j : Fin 8) (hj : a ≠ regOp j) : t.regs[j] = s.regs[j] := by
    rcases hi with rfl | rfl | rfl <;> exact he.regs_eq hj
  have hmem : t.mem = s.mem := by
    rcases hi with rfl | rfl | rfl <;> exact he.mem_eq nofun nofun
  obtain ⟨hparams, hfl, hout, hstatus⟩ : t.params = s.params ∧ t.fl = s.fl ∧ t.out = s.out ∧ _ := by
    rcases hi with rfl | rfl | rfl <;> exact he.frame nofun nofun nofun
  exact ⟨hregs, hparams, hfl, hout, hstatus, fun x => by rw [hmem]⟩

/-- Settles O33: none of the six forms has a destination register or stores. -/
theorem noRegisterResultFrame : Obligations.NoRegisterResultFrame := by
  intro s t i hi h
  have he := exec_effect h
  have hregs (j : Fin 8) : t.regs[j] = s.regs[j] := by
    rcases hi with ⟨a, b, rfl⟩ | ⟨a, rfl | rfl | rfl | rfl⟩ | rfl <;> exact he.regs_eq id
  have hmem : t.mem = s.mem := by
    rcases hi with ⟨a, b, rfl⟩ | ⟨a, rfl | rfl | rfl | rfl⟩ | rfl <;> exact he.mem_eq nofun nofun
  exact ⟨hregs, he.params_eq, he.fl_eq, he.out_eq, he.status_eq_or_faulted, fun x => by rw [hmem]⟩

/-- Settles O34: POP and RET do not store. -/
theorem poppingFrame : Obligations.PoppingFrame := by
  intro s t
  refine ⟨fun a h j ha hsp => (exec_effect h).regs_eq (not_or.mpr ⟨ha, hsp⟩),
    fun h j hsp => (exec_effect h).regs_eq hsp, fun h => ?_⟩
  obtain ⟨i, he, hi⟩ : ∃ i, Effect s i t ∧ ((∃ a, i = .pop a) ∨ i = .ret) := by
    rcases h with ⟨a, h⟩ | h <;> exact ⟨_, exec_effect h, by simp⟩
  have hmem : t.mem = s.mem := by
    rcases hi with ⟨a, rfl⟩ | rfl <;> exact he.mem_eq nofun nofun
  obtain ⟨hparams, hfl, hout, hstatus⟩ : t.params = s.params ∧ t.fl = s.fl ∧ t.out = s.out ∧ _ := by
    rcases hi with ⟨a, rfl⟩ | rfl <;> exact he.frame nofun nofun nofun
  exact ⟨hparams, hfl, hout, hstatus, fun x => by rw [hmem]⟩

/-- Settles O35: a cell that differs is the one at `A(wr(SP - 1))`, by `Effect.read_eq`. -/
theorem pushingFrame : Obligations.PushingFrame := by
  intro s t a h
  obtain ⟨i, he, hi⟩ : ∃ i, Effect s i t ∧ (i = .push a ∨ i = .call a) := by
    rcases h with h | h <;> exact ⟨_, exec_effect h, by simp⟩
  have hregs (j : Fin 8) (hj : j ≠ spIndex) : t.regs[j] = s.regs[j] := by
    rcases hi with rfl | rfl <;> exact he.regs_eq hj
  obtain ⟨hparams, hfl, hout, hstatus⟩ : t.params = s.params ∧ t.fl = s.fl ∧ t.out = s.out ∧ _ := by
    rcases hi with rfl | rfl <;> exact he.frame nofun nofun nofun
  refine ⟨hregs, hparams, hfl, hout, hstatus, fun ad had x hx => he.read_eq ?inRange, fun c hc x => he.read_eq ?raises⟩
  case inRange => rw [State.sp_eq, had]; exact fun heq => hx (Except.ok.inj heq).symm
  case raises => rw [State.sp_eq, hc]; nofun

/-! ## Who reads the flags -/

/-- A push does not read `fl`. -/
theorem pushValue_writeFlag (s : State) (f : Flag) (v : Int) :
    (s.writeFlag f).pushValue v = (s.pushValue v).map (·.writeFlag f) := by
  simp only [State.pushValue, State.writeFlag_params, State.sp, State.reg_writeFlag]
  cases address s.params (s.params.wr (s.reg spIndex - 1)) <;> rfl

/-- A pop does not read `fl`. -/
theorem popValue_writeFlag (s : State) (f : Flag) :
    (s.writeFlag f).popValue = s.popValue.map (fun x => (x.1, x.2.writeFlag f)) := by
  simp only [State.popValue, State.writeFlag_params, State.sp, State.reg_writeFlag]
  cases address s.params (s.reg spIndex) <;> rfl

/-- A body that carries a changed `fl` through is committed, or raises, with it. -/
theorem commit_writeFlag {s t : State} {r r' : Except Cause State} (f : Flag) (h : s.commit r = .next t)
    (hr : r' = r.map (·.writeFlag f)) : (s.writeFlag f).commit r' = .next (t.writeFlag f) := by
  subst hr
  cases r <;> cases h <;> rfl

/-- An instruction that is neither CMP nor JEQ nor JNE carries a changed `fl` through (10_state.md R30). -/
theorem exec_writeFlag {i : Instr} {s t : State} (f : Flag) (hcmp : ∀ a b, i ≠ .cmp a b) (hjeq : ∀ a, i ≠ .jeq a)
    (hjne : ∀ a, i ≠ .jne a) (h : exec i s = .next t) : exec i (s.writeFlag f) = .next (t.writeFlag f) := by
  cases i with
  | hlt => cases h; rfl
  | ldi a imm =>
    refine commit_writeFlag f h ?_
    cases registerOperand a <;> [rfl; cases operandValue imm <;> rfl]
  | prn a =>
    refine commit_writeFlag f h ?_
    cases registerOperand a <;> rfl
  | jmp a =>
    refine commit_writeFlag f h ?_
    simp only [jumpTo]
    cases registerOperand a <;> rfl
  | add a b | mul a b =>
    refine commit_writeFlag f h ?_
    simp only [aluBody]
    cases registerOperand a <;> [rfl; cases registerOperand b <;> rfl]
  | push a =>
    refine commit_writeFlag f h ?_
    simp only [pushValue_writeFlag, State.reg_writeFlag]
    cases registerOperand a with
    | error c => rfl
    | ok r => simp only [bind_ok]; cases s.pushValue (s.reg r) <;> rfl
  | call a =>
    refine commit_writeFlag f h ?_
    simp only [pushValue_writeFlag, State.writeFlag_pc]
    cases registerOperand a <;> [rfl; cases s.pushValue (s.pc + 2) <;> rfl]
  | pop a =>
    refine commit_writeFlag f h ?_
    simp only [popValue_writeFlag]
    cases registerOperand a <;> [rfl; cases s.popValue <;> rfl]
  | ret =>
    refine commit_writeFlag f h ?_
    simp only [popValue_writeFlag]
    cases s.popValue <;> rfl
  | cmp a b => exact absurd rfl (hcmp a b)
  | jeq a => exact absurd rfl (hjeq a)
  | jne a => exact absurd rfl (hjne a)

/-- CMP does not read `fl`: it raises the same cause and keeps the changed `fl`, or ends in the same state. -/
theorem execCmp_writeFlag {a b : Operand} {s t : State} (f : Flag) (h : execCmp a b s = .next t) :
    (∃ c, t = s.raise c ∧ execCmp a b (s.writeFlag f) = .next (t.writeFlag f)) ∨
      execCmp a b (s.writeFlag f) = .next t := by
  cases ha : registerOperand a with
  | error c =>
    simp only [execCmp, aluBody, ha, bind_error, commit_error] at h ⊢
    cases h
    exact .inl ⟨c, rfl, rfl⟩
  | ok ra =>
    cases hb : registerOperand b with
    | error c =>
      simp only [execCmp, aluBody, ha, hb, bind_ok, bind_error, commit_error] at h ⊢
      cases h
      exact .inl ⟨c, rfl, rfl⟩
    | ok rb =>
      simp only [execCmp, aluBody, ha, hb, bind_ok, aluApply, pure_ok, commit_ok] at h ⊢
      cases h
      exact .inr rfl

/-- Settles O36: a changed `fl` is carried through, except that a CMP that does not raise overwrites it. -/
theorem flagsWriterAndReaders : Obligations.FlagsWriterAndReaders := by
  refine ⟨fun i s t h hcmp => (exec_effect h).fl_eq hcmp, fun i s t f hjeq hjne h => ?_⟩
  by_cases hcmp : ∃ a b, i = .cmp a b
  · obtain ⟨a, b, rfl⟩ := hcmp
    rcases execCmp_writeFlag f h with ⟨c, rfl, hu⟩ | hu
    · exact ⟨_, hu, rfl, nofun⟩
    · exact ⟨t, hu, rfl, fun _ _ _ _ => rfl⟩
  · have hne (a b) : i ≠ .cmp a b := fun hi => hcmp ⟨a, b, hi⟩
    exact ⟨_, exec_writeFlag f hne hjeq hjne h, rfl, fun _ a b hi => absurd hi (hne a b)⟩

/-! ## What a step can do, and who writes the output -/

/-- A step that has a next state raised in the fetch, met an unrecognised opcode, or executed the instruction it
dispatched (40_fetch_decode_execute.md R100 to R102). -/
theorem step_next_cases {s t : State} (h : step s = .next t) :
    (∃ c, fetch s = .error c ∧ t = s.raise c) ∨
    (∃ op b1 b2, fetch s = .ok (op, b1, b2) ∧ dispatch op b1 b2 = none ∧ t = s.unrecognised op) ∨
    ∃ op b1 b2 i, fetch s = .ok (op, b1, b2) ∧ dispatch op b1 b2 = some i ∧ exec i s = .next t := by
  rcases step_cases s with ⟨_, c, hf, hs⟩ | ⟨_, op, b1, b2, i, hf, hd, hs⟩ | ⟨_, op, b1, b2, hf, hd, hs⟩ | ⟨_, hs⟩ <;>
    rw [hs] at h
  case inl => cases h; exact .inl ⟨c, hf, rfl⟩
  case inr.inl => exact .inr (.inr ⟨op, b1, b2, i, hf, hd, h⟩)
  case inr.inr.inl => cases h; exact .inr (.inl ⟨op, b1, b2, hf, hd, rfl⟩)
  case inr.inr.inr => cases h

/-- A PRN of a register emits its value, and cannot raise (43_register_io.md R141). -/
theorem exec_prn_reg (r : Fin 8) (s : State) :
    exec (.prn (regOp r)) s = .next ((s.emit s.regs[r]).advance 2) := by
  simp [exec, execPrn, State.reg_eq]

/-- Settles O37: a step executes at most one instruction, and only a PRN of a register extends `out`. -/
theorem outputOnlyByPrn : Obligations.OutputOnlyByPrn := by
  refine ⟨fun _ => rfl, fun s t h => ?_⟩
  rcases step_next_cases h with ⟨c, hf, rfl⟩ | ⟨op, b1, b2, hf, hd, rfl⟩ | ⟨op, b1, b2, i, hf, hd, he⟩
  · exact .inr ⟨rfl, fun _ _ _ hf' => by rw [hf] at hf'; cases hf'⟩
  · have hout : (s.unrecognised op).out = s.out := by
      rcases unrecognised_cases s op with ⟨_, hu⟩ | ⟨_, hu⟩ <;> rw [hu] <;> rfl
    refine .inr ⟨hout, fun op' r b2' hf' hd' => ?_⟩
    rw [hf] at hf'; cases hf'
    rw [hd] at hd'; cases hd'
  · rcases (exec_effect he).out_cases with hout | ⟨r, rfl, hout⟩
    · refine .inr ⟨hout, fun op' r b2' hf' hd' => ?_⟩
      rw [hf] at hf'; cases hf'
      rw [hd] at hd'; cases hd'
      rw [exec_prn_reg] at he; cases he
      simp at hout
    · obtain rfl : regOp r = b1 := Instr.prn.inj (dispatch_some hd).2
      exact .inl ⟨op, r, b2, hf, hd, hout⟩

/-! ## The state after reset -/

/-- The register file after reset: 0 everywhere but in SP (10_state.md R40). -/
theorem resetWith_regs (p : Params) :
    (State.resetWith p).regs = (Vector.replicate 8 0).set spIndex (p.wr spStart) := rfl

theorem resetWith_reg {r : Fin 8} (p : Params) (hr : r ≠ spIndex) : (State.resetWith p).regs[r] = 0 := by
  rw [resetWith_regs, regs_set_ne _ _ hr.symm]
  exact Vector.getElem_replicate ..

theorem resetWith_sp (p : Params) : (State.resetWith p).regs[spIndex] = p.wr spStart := rfl

/-- Settles O45: under `wrap8` the start of the stack is sign-extended, and addresses the same cell. -/
theorem resetValues : Obligations.ResetValues := by
  refine ⟨rfl, fun p => ⟨fun r hr => resetWith_reg p hr, fun ha => ?reference, fun ha => ?wrap8, ?stackTop,
    rfl, rfl, fun _ => rfl, rfl, rfl, rfl⟩⟩ <;> rw [resetWith_sp]
  case reference => exact p.wr_reference ha _
  case wrap8 => rw [p.wr_wrap8 ha]; decide
  case stackTop =>
    cases ha : p.arith with
    | reference => rw [p.wr_reference ha]; simp only [address, ha]; rfl
    | wrap8 => rw [p.wr_wrap8 ha]; simp only [address, ha]; rfl

/-! ## The invariant -/

/-- A property of all registers survives a write of a value that has it. -/
theorem forall_regs_set {P : Int → Prop} {v : Vector Int 8} (h : ∀ j : Fin 8, P v[j]) (i : Fin 8) {x : Int} (hx : P x)
    (j : Fin 8) : P (v.set i x)[j] := by
  by_cases hij : i = j
  · subst hij; rw [regs_set_same]; exact hx
  · rw [regs_set_ne v x hij]; exact h j

/-- A property of all listed cells survives a write of a value that has it. -/
theorem Memory.forall_write {P : Int → Prop} {m : Memory} (h : ∀ c ∈ m, P c.2) (a : Nat) {v : Int} (hv : P v) :
    ∀ c ∈ m.write a v, P c.2 := by
  intro c hc
  rcases Memory.mem_write hc with hc | rfl
  · exact h c hc
  · exact hv

/-- A program load places bytes, so it keeps the domain of the cells (30_encoding.md R76). -/
theorem Memory.forall_loadFrom {m : Memory} (h : ∀ c ∈ m, 0 ≤ c.2 ∧ c.2 ≤ 255) (k : Nat) (image : List Byte) :
    ∀ c ∈ Memory.loadFrom m k image, 0 ≤ c.2 ∧ c.2 ≤ 255 := by
  induction image generalizing m k with
  | nil => exact h
  | cons b rest ih =>
    have hb : 0 ≤ b.value ∧ b.value ≤ 255 := by
      have := b.isLt
      simp only [Byte.value]
      omega
    exact ih (Memory.forall_write (P := fun x => 0 ≤ x ∧ x ≤ 255) h k hb) (k + 1)

/-! One rule per update of the state. The updates of `fl`, `out` and `status` touch nothing the invariant speaks of. -/

section
variable {s : State}

theorem State.Inv.writeFlag (h : s.Inv) (f : Flag) : (s.writeFlag f).Inv := h

theorem State.Inv.emit (h : s.Inv) (v : Int) : (s.emit v).Inv := h

theorem State.Inv.halt (h : s.Inv) : s.halt.Inv := h

theorem State.Inv.raise (h : s.Inv) (c : Cause) : (s.raise c).Inv := h

theorem State.Inv.refuse (h : s.Inv) (op : Int) : (s.refuse op).Inv := h

/-- Every register write goes through `wr` (10_state.md R21). -/
theorem State.Inv.writeReg (h : s.Inv) (i : Fin 8) (v : Int) : (s.writeReg i v).Inv := by
  obtain ⟨hparams, hmem, hdom⟩ := h
  refine ⟨hparams, hmem, fun ha => ?_⟩
  obtain ⟨hregs, hpc, hcells⟩ := hdom ha
  exact ⟨forall_regs_set (P := fun x => -128 ≤ x ∧ x ≤ 127) hregs i (s.params.wr_range ha v), hpc, hcells⟩

/-- Every `pc` write goes through `tgt` (10_state.md R26). -/
theorem State.Inv.writePc (h : s.Inv) (v : Int) : (s.writePc v).Inv := by
  obtain ⟨hparams, hmem, hdom⟩ := h
  refine ⟨hparams, hmem, fun ha => ?_⟩
  obtain ⟨hregs, -, hcells⟩ := hdom ha
  exact ⟨hregs, s.params.tgt_range ha v, hcells⟩

theorem State.Inv.advance (h : s.Inv) (len : Nat) : (s.advance len).Inv := h.writePc _

/-- Every store goes through `cell`, inside the 256 cells (10_state.md R33, 20_memory.md R50). -/
theorem State.Inv.store (h : s.Inv) {a : Nat} (ha : a < memSize) (v : Int) : (s.store a v).Inv := by
  obtain ⟨hparams, hmem, hdom⟩ := h
  refine ⟨hparams, Memory.write_wf hmem _ ha, fun harith => ?_⟩
  obtain ⟨hregs, hpc, hcells⟩ := hdom harith
  exact ⟨hregs, hpc, Memory.forall_write (P := fun x => 0 ≤ x ∧ x ≤ 255) hcells a (s.params.cell_range harith v)⟩

theorem State.Inv.unrecognised (h : s.Inv) (op : Int) : (s.unrecognised op).Inv := by
  rcases unrecognised_cases s op with ⟨_, hu⟩ | ⟨_, hu⟩ <;> rw [hu]
  · exact h.refuse op
  · exact h.raise _

/-- Every instruction keeps the invariant. -/
theorem State.Inv.effect {i : Instr} {t : State} (hinv : s.Inv) (h : Effect s i t) : t.Inv := by
  cases h with
  | raised _ c => exact hinv.raise c
  | hlt => exact hinv.halt
  | ldi r v => exact (hinv.writeReg r v).advance 3
  | prn r => exact (hinv.emit _).advance 2
  | add ra | mul ra => exact (hinv.writeReg ra _).advance 3
  | cmp => exact (hinv.writeFlag _).advance 3
  | push r ad had => exact ((hinv.writeReg spIndex _).store (address_lt had) _).advance 2
  | pop r => exact ((hinv.writeReg spIndex _).writeReg r _).advance 2
  | call r ad had => exact ((hinv.writeReg spIndex _).store (address_lt had) _).writePc _
  | ret => exact (hinv.writeReg spIndex _).writePc _
  | jmp | jeqTaken | jneTaken => exact hinv.writePc _
  | jeqNotTaken | jneNotTaken => exact hinv.advance 2

/-- Program load keeps the invariant (70_reset_and_hazards.md R192). -/
theorem State.Inv.loadImage {image : List Byte} {t : State} (hinv : s.Inv) (h : s.loadImage image = .ok t) : t.Inv := by
  unfold State.loadImage at h
  split at h
  · next hlen =>
    cases h
    obtain ⟨hparams, hmem, hdom⟩ := hinv
    refine ⟨hparams, Memory.loadFrom_wf hmem 0 image (by omega), fun ha => ?_⟩
    obtain ⟨hregs, hpc, hcells⟩ := hdom ha
    exact ⟨hregs, hpc, Memory.forall_loadFrom hcells 0 image⟩
  · cases h

end

/-- The reset state meets the invariant (10_state.md R40). -/
theorem resetWith_inv {p : Params} (hp : paramsOk p = true) : (State.resetWith p).Inv := by
  refine ⟨hp, Memory.reset_wf p, fun ha => ⟨fun r => ?_, ⟨Int.le_refl 0, Int.natCast_nonneg 255⟩, nofun⟩⟩
  by_cases hr : r = spIndex
  · subst hr; exact p.wr_range ha spStart
  · rw [resetWith_reg p hr]; decide

/-- Settles O47: the reset state meets the invariant, and a program load keeps it. -/
theorem resetMeetsInvariant : Obligations.ResetMeetsInvariant :=
  fun _ hp => ⟨resetWith_inv hp, fun _ _ h => (resetWith_inv hp).loadImage h⟩

/-- No step changes a parameter (00_scope.md R6). -/
theorem step_params {s t : State} (h : step s = .next t) : t.params = s.params := by
  rcases step_next_cases h with ⟨c, _, rfl⟩ | ⟨op, _, _, _, _, rfl⟩ | ⟨_, _, _, _, _, _, he⟩
  · rfl
  · rcases unrecognised_cases s op with ⟨_, hu⟩ | ⟨_, hu⟩ <;> rw [hu] <;> rfl
  · exact (exec_effect he).params_eq

/-- Every step keeps the invariant. -/
theorem State.Inv.step {s t : State} (hinv : s.Inv) (h : Machine.step s = .next t) : t.Inv := by
  rcases step_next_cases h with ⟨c, _, rfl⟩ | ⟨op, _, _, _, _, rfl⟩ | ⟨_, _, _, _, _, _, he⟩
  · exact hinv.raise c
  · exact hinv.unrecognised op
  · exact hinv.effect (exec_effect he)

/-- Settles O48, from one rule per update of the state. -/
theorem stepKeepsInvariant : Obligations.StepKeepsInvariant :=
  fun _ _ hinv h => ⟨hinv.step h, step_params h⟩

/-! ## Runs -/

/-- A run of `n + 1` steps is a step and a run of `n` steps. -/
theorem run_succ_next {n : Nat} {s t : State} (h : Host.Core.run core (n + 1) s = .next t) :
    ∃ u, step s = .next u ∧ Host.Core.run core n u = .next t := by
  simp only [Host.Core.run] at h
  split at h
  · next u hu => exact ⟨u, hu, h⟩
  · cases h
  · cases h

/-- A reflexive and transitive relation that every step is in relates the two ends of every run. -/
theorem run_induction {R : State → State → Prop} (hrefl : ∀ s, R s s) (htrans : ∀ {s u t}, R s u → R u t → R s t)
    (hstep : ∀ {s u}, step s = .next u → R s u) {n : Nat} {s t : State} (h : Host.Core.run core n s = .next t) : R s t := by
  induction n generalizing s with
  | zero => cases h; exact hrefl _
  | succ n ih =>
    obtain ⟨u, hu, hrun⟩ := run_succ_next h
    exact htrans (hstep hu) (ih hrun)

/-- A step only extends the output (10_state.md R37). -/
theorem step_out_prefix {s t : State} (h : step s = .next t) : s.out <+: t.out := by
  rcases outputOnlyByPrn.2 s t h with ⟨_, r, _, _, _, hout⟩ | ⟨hout, _⟩
  · exact ⟨[s.regs[r]], hout.symm⟩
  · exact ⟨[], by rw [hout, List.append_nil]⟩

/-- Settles O49: each of the three relations is reflexive and transitive, and every step is in it. -/
theorem runKeepsInvariant : Obligations.RunKeepsInvariant := by
  intro n s t hinv h
  have hkept : s.Inv → t.Inv :=
    run_induction (R := fun s t => s.Inv → t.Inv) (fun _ => id) (fun h₁ h₂ => h₂ ∘ h₁) (fun hs hi => hi.step hs) h
  have hparams : t.params = s.params :=
    run_induction (R := fun s t => t.params = s.params) (fun _ => rfl) (fun h₁ h₂ => h₂.trans h₁) step_params h
  obtain ⟨printed, hout⟩ : s.out <+: t.out :=
    run_induction (R := fun s t => s.out <+: t.out) (fun _ => List.prefix_rfl) List.IsPrefix.trans step_out_prefix h
  exact ⟨hkept hinv, hparams, printed, hout.symm⟩

end Sys2Proof.Machine
end

section
/-! Proofs of the statements about 20_memory.md: which step changes a cell, that a wrapped address never faults, and that
the fetch sees a store. -/

namespace Sys2Proof.Machine

/-! ## Which step changes a memory cell -/

/-- An unrecognised opcode changes no cell (60_exceptions.md R172, R177). -/
theorem unrecognised_mem (s : State) (op : Int) : (s.unrecognised op).mem = s.mem := by
  rcases unrecognised_cases s op with ⟨_, hu⟩ | ⟨_, hu⟩ <;> rw [hu] <;> rfl

/-- An instruction that changes memory is a PUSH or a CALL (20_memory.md R50). -/
theorem Effect.eq_push_or_call {s t : State} {i : Instr} (h : Effect s i t) (hmem : t.mem ≠ s.mem) :
    ∃ a, i = .push a ∨ i = .call a := by
  by_contra hi
  exact hmem (h.mem_eq (fun a ha => hi ⟨a, .inl ha⟩) (fun a ha => hi ⟨a, .inr ha⟩))

/-- A step that changes memory executed an instruction; a raise and an unrecognised opcode change none. -/
theorem step_mem_ne {s t : State} (h : step s = .next t) (hmem : t.mem ≠ s.mem) :
    ∃ op b1 b2 i, fetch s = .ok (op, b1, b2) ∧ dispatch op b1 b2 = some i ∧ Effect s i t := by
  rcases step_next_cases h with ⟨c, _, rfl⟩ | ⟨op, _, _, _, _, rfl⟩ | ⟨op, b1, b2, i, hf, hd, he⟩
  · exact absurd rfl hmem
  · exact absurd (unrecognised_mem s op) hmem
  · exact ⟨op, b1, b2, i, hf, hd, exec_effect he⟩

/-- Settles O38: the step executed an instruction, the frame lemmas name its cell and its form, and its operand is the
one fetched. -/
theorem memoryOnlyByPushAndCall : Obligations.MemoryOnlyByPushAndCall := by
  intro s t h x hx
  have hmem : t.mem ≠ s.mem := fun heq => hx (by rw [heq])
  obtain ⟨op, b1, b2, i, hf, hd, he⟩ := step_mem_ne h hmem
  have hcell : address s.params (s.params.wr (s.sp - 1)) = .ok x := by
    by_contra hne
    exact hx (he.read_eq hne)
  refine ⟨hcell, op, b1, b2, hf, ?_⟩
  obtain ⟨a, rfl | rfl⟩ := he.eq_push_or_call hmem
  · obtain rfl : a = b1 := Instr.push.inj (dispatch_some hd).2
    exact .inl hd
  · obtain rfl : a = b1 := Instr.call.inj (dispatch_some hd).2
    exact .inr hd

/-! ## Where `AddressOutOfRange` comes from -/

/-- A candidate operand raises only where its address does (40_fetch_decode_execute.md R101). -/
theorem address_error_of_candidate_error {s : State} {v : Int} {c : Cause} (h : candidate s v = .error c) :
    address s.params v = .error c := by
  rcases candidate_cases s v with ⟨_, _, h'⟩ | ⟨d, hd, _, h'⟩ | ⟨_, _, _, h'⟩ <;> rw [h'] at h <;> cases h
  exact hd

/-- A candidate operand is marked absent only where its address raises (40_fetch_decode_execute.md R101). -/
theorem address_error_of_candidate_absent {s : State} {v w : Int} (h : candidate s v = .ok (.absent w)) :
    address s.params w = .error (.addressOutOfRange w) := by
  rcases candidate_cases s v with ⟨_, _, h'⟩ | ⟨_, _, _, h'⟩ | ⟨c, hc, _, h'⟩ <;> rw [h'] at h <;> cases h
  obtain ⟨rfl, _⟩ := address_error hc
  exact hc

/-- A fetch raises only where one of its three addresses does (60_exceptions.md R179). -/
theorem address_error_of_fetch_error {s : State} {c : Cause} (h : fetch s = .error c) :
    ∃ v, address s.params v = .error c := by
  unfold fetch at h
  split at h
  · next d hd => cases h; exact ⟨_, hd⟩
  · split at h
    · next d hd => cases h; exact ⟨_, address_error_of_candidate_error hd⟩
    · split at h
      · next d hd => cases h; exact ⟨_, address_error_of_candidate_error hd⟩
      · cases h

/-- Every row of the opcode table takes its operands from the two candidates (30_encoding.md R71). -/
theorem operands_assemble_subset (m : Mnemonic) (b1 b2 : Operand) : (m.assemble b1 b2).operands ⊆ [b1, b2] := by
  cases m <;> simp [Mnemonic.assemble, Instr.operands]

/-- The operands of a dispatched instruction are among the two candidates (40_fetch_decode_execute.md R102). -/
theorem operands_dispatch_subset {op : Int} {b1 b2 : Operand} {i : Instr} (h : dispatch op b1 b2 = some i) :
    i.operands ⊆ [b1, b2] := by
  rw [(dispatch_some h).2]
  exact operands_assemble_subset i.mnemonic b1 b2

/-- An absent operand of the instruction fetched lies at an address that raises. -/
theorem address_error_of_absent {s : State} {op : Int} {b1 b2 : Operand} {i : Instr} {v : Int}
    (hf : fetch s = .ok (op, b1, b2)) (hd : dispatch op b1 b2 = some i) (ho : .absent v ∈ i.operands) :
    address s.params v = .error (.addressOutOfRange v) := by
  obtain ⟨_, _, _, hb1, hb2⟩ := fetch_ok hf
  have hcandidate : Operand.absent v = b1 ∨ Operand.absent v = b2 := by simpa using operands_dispatch_subset hd ho
  rcases hcandidate with rfl | rfl
  · exact address_error_of_candidate_absent hb1
  · exact address_error_of_candidate_absent hb2

/-- A raise records its cause. -/
theorem raise_inj {s : State} {c d : Cause} (h : s.raise c = s.raise d) : c = d := by
  simpa using congrArg State.status h

/-- The instruction fetched raises `AddressOutOfRange` only for an address that raises: of an operand it references, or of
the stack (60_exceptions.md R174). -/
theorem Raises.exists_address_error {s : State} {op : Int} {b1 b2 : Operand} {i : Instr} {v : Int}
    (hf : fetch s = .ok (op, b1, b2)) (hd : dispatch op b1 b2 = some i) (h : Raises s i (.addressOutOfRange v)) :
    ∃ w, address s.params w = .error (.addressOutOfRange v) := by
  cases h with
  | absentOperand _ ho => exact ⟨v, address_error_of_absent hf hd ho⟩
  | pushAddress _ _ ha | popAddress _ _ ha => exact ⟨_, ha⟩

/-- A step that ends in `AddressOutOfRange` formed an address that raises: in the fetch, or in the instruction fetched
(60_exceptions.md R174). -/
theorem step_addressOutOfRange {s t : State} {v p : Int} (h : step s = .next t)
    (ht : t.status = .faulted (.addressOutOfRange v) p) : ∃ w, address s.params w = .error (.addressOutOfRange v) := by
  obtain ⟨hrun, -⟩ := step_status_cases h
  obtain ⟨-, rfl⟩ := step_faulted h ht
  rcases step_next_cases h with ⟨c, hf, hc⟩ | ⟨op, _, _, _, _, hu⟩ | ⟨op, b1, b2, i, hf, hd, he⟩
  case inl =>
    obtain rfl := raise_inj hc
    exact address_error_of_fetch_error hf
  case inr.inl =>
    rcases unrecognised_cases s op with ⟨_, hu'⟩ | ⟨_, hu'⟩
    · cases congrArg State.status (hu.trans hu')
    · cases raise_inj (hu.trans hu')
  case inr.inr =>
    rcases (exec_effect he).status_cases with ⟨c, hraises, hc⟩ | ⟨_, hhalt⟩ | ⟨_, hkeep⟩
    · obtain rfl := raise_inj hc
      exact hraises.exists_address_error hf hd
    · cases congrArg State.status hhalt
    · cases hkeep.trans hrun

/-- Settles O41: an address that raises needs `reference` and `ADDR = fault`. -/
theorem wrappedAddressesNeverFault : Obligations.WrappedAddressesNeverFault := by
  intro s t v p hwrap h ht
  obtain ⟨w, hw⟩ := step_addressOutOfRange h ht
  obtain ⟨-, href, hfault, -⟩ := address_error hw
  simp [href, hfault] at hwrap

/-! ## The fetch sees a store -/

/-- Settles O15: the fetch reads the cell just written (`Memory.read_write_same`). -/
theorem fetchSeesEarlierStore : Obligations.FetchSeesEarlierStore := by
  intro s a v hwf ha op b1 b2 hf
  obtain ⟨a', ha', hop, -, -⟩ := fetch_ok hf
  obtain rfl : a = a' := Except.ok.inj (ha.symm.trans ha')
  exact hop.trans (Memory.read_write_same hwf a (s.params.cell v))

end Sys2Proof.Machine
end

section
/-! Proofs of the statements about 30_encoding.md: the opcode table, the bytes an instruction does not use, decoding and
encoding, and an unrecognised opcode. -/

namespace Sys2Proof

/-! ## An instruction is its mnemonic and its operands -/

/-- A row puts the first candidates into its fields, as many as its format has (30_encoding.md R71). -/
theorem operands_assemble (m : Mnemonic) (b1 b2 : Operand) :
    (m.assemble b1 b2).operands = [b1, b2].take m.format.operandCount := by
  cases m <;> rfl

/-- The operand fields are as many as the format says (30_encoding.md R71). -/
theorem operands_length (i : Instr) : i.operands.length = i.mnemonic.format.operandCount := by
  cases i <;> rfl

/-- An instruction is its row filled with its own operands, whatever stands in the fields its format lacks. -/
theorem assemble_operands (i : Instr) (o : Operand) :
    i.mnemonic.assemble (i.operands.getD 0 o) (i.operands.getD 1 o) = i := by
  cases i <;> rfl

theorem instr_ext {i j : Instr} (hm : i.mnemonic = j.mnemonic) (ho : i.operands = j.operands) : i = j := by
  rw [← assemble_operands i (.cell 0), ← assemble_operands j (.cell 0), hm, ho]

theorem operandCount_le_two (f : Format) : f.operandCount ≤ 2 := by
  cases f <;> decide

/-! ## What the decoder answers -/

/-- The candidates read from a list are its first cells, where it has them. -/
theorem take_operandAt {cells : List Int} {n : Nat} (hn : n ≤ 2) (hlen : n ≤ cells.length) :
    [operandAt cells 0, operandAt cells 1].take n = (cells.take n).map Operand.cell := by
  match n, cells with
  | 0, _ => rfl
  | 1, _ :: _ => rfl
  | 2, _ :: _ :: _ => rfl

/-- A row filled from a list of cells has the first cells as its operands. -/
theorem operands_assemble_operandAt {m : Mnemonic} {cells : List Int} (h : m.format.operandCount ≤ cells.length) :
    (m.assemble (operandAt cells 0) (operandAt cells 1)).operands =
      (cells.take m.format.operandCount).map Operand.cell := by
  rw [operands_assemble, take_operandAt (operandCount_le_two _) h]

/-- Decoding the opcode of a row with enough cells after it (30_encoding.md R70, R79). -/
theorem decode_opcode {m : Mnemonic} {cells : List Int} (h : m.format.operandCount ≤ cells.length) :
    decode (m.opcode.value :: cells) =
      .ok (m.assemble (operandAt cells 0) (operandAt cells 1), cells.drop m.format.operandCount) := by
  simp [decode, Nat.not_lt.mpr h]

/-- A list that decodes begins with the opcode of a row and has a cell for each of its operands. -/
theorem decode_ok {cells rest : List Int} {i : Instr} (h : decode cells = .ok (i, rest)) :
    ∃ (m : Mnemonic) (tail : List Int), cells = m.opcode.value :: tail ∧ m.format.operandCount ≤ tail.length ∧
      i = m.assemble (operandAt tail 0) (operandAt tail 1) ∧ rest = tail.drop m.format.operandCount := by
  match cells with
  | [] => cases h
  | op :: tail =>
    cases hm : Mnemonic.ofOpcode op with
    | none => simp [decode, hm] at h
    | some m =>
      obtain rfl := ofOpcode_some hm
      by_cases hshort : tail.length < m.format.operandCount
      · simp [decode, hshort] at h
      · have hlen := Nat.not_lt.mp hshort
        rw [decode_opcode hlen] at h
        cases h
        exact ⟨m, tail, rfl, hlen, rfl, rfl⟩

/-- What decoding means: the list is the opcode of the instruction's row, the cells its operands hold, and the rest
(30_encoding.md R70, R71). -/
theorem decode_eq_ok_iff {cells rest : List Int} {i : Instr} :
    decode cells = .ok (i, rest) ↔
      ∃ ops : List Int, i.operands = ops.map Operand.cell ∧ cells = i.mnemonic.opcode.value :: (ops ++ rest) := by
  constructor
  · intro h
    obtain ⟨m, tail, rfl, hlen, rfl, rfl⟩ := decode_ok h
    exact ⟨tail.take m.format.operandCount, operands_assemble_operandAt hlen, by simp⟩
  · rintro ⟨ops, hops, rfl⟩
    have hcount : i.mnemonic.format.operandCount = ops.length := by simp [← operands_length, hops]
    have hlen : i.mnemonic.format.operandCount ≤ (ops ++ rest).length := by simp [hcount]
    have hi : i.mnemonic.assemble (operandAt (ops ++ rest) 0) (operandAt (ops ++ rest) 1) = i :=
      instr_ext (by simp) (by simp [operands_assemble_operandAt hlen, hcount, hops])
    simp [decode_opcode hlen, hi, hcount]

/-! ## Decoding and encoding agree -/

/-- The byte of an operand that holds a byte's value is that byte. -/
@[simp] theorem toByte_value (b : Byte) : (Operand.cell b.value).toByte = b := by
  simp [Operand.toByte, Byte.value]

/-- An operand in `0 .. 255` is the value of its byte (30_encoding.md R80). -/
theorem cell_value_toByte {o : Operand} (h : o.isByte = true) : Operand.cell o.toByte.value = o := by
  cases o with
  | absent _ => cases h
  | cell v =>
    have hv : 0 ≤ v ∧ v ≤ 255 := of_decide_eq_true h
    have hmod : v % 256 = v := Int.emod_eq_of_lt hv.1 (by omega)
    simp [Operand.toByte, Byte.value, hmod, hv.1]

theorem isByte_of_isRegister {o : Operand} (h : o.isRegister = true) : o.isByte = true := by
  cases o with
  | absent _ => cases h
  | cell v =>
    have hv : 0 ≤ v ∧ v ≤ 7 := of_decide_eq_true h
    exact decide_eq_true (by omega)

/-- Every operand of a well-formed instruction is a byte (30_encoding.md R80). -/
theorem isByte_of_wellFormed {i : Instr} (h : i.wellFormed = true) : ∀ o ∈ i.operands, o.isByte = true := by
  cases i with
  | hlt | ret => simp [Instr.operands]
  | ldi a imm =>
    obtain ⟨ha, himm⟩ : a.isRegister = true ∧ imm.isByte = true := by simpa [Instr.wellFormed] using h
    simp [Instr.operands, isByte_of_isRegister ha, himm]
  | add a b | mul a b | cmp a b =>
    obtain ⟨ha, hb⟩ : a.isRegister = true ∧ b.isRegister = true := by simpa [Instr.wellFormed] using h
    simp [Instr.operands, isByte_of_isRegister ha, isByte_of_isRegister hb]
  | prn a | push a | pop a | call a | jmp a | jeq a | jne a =>
    simp [Instr.operands, isByte_of_isRegister (o := a) h]

/-- The cell values of an encoding: the opcode, then the bytes of the operands (30_encoding.md R70). -/
theorem map_value_encode (i : Instr) :
    (encode i).map Byte.value = i.mnemonic.opcode.value :: i.operands.map (fun o => o.toByte.value) := by
  simp [encode]

/-- Settles O7: the operands of a well-formed instruction are the cells of their own bytes, and that is what decoding
asks of a list (`decode_eq_ok_iff`). -/
theorem decodeOfEncode : Obligations.DecodeOfEncode := by
  intro i rest hwf
  have hcell : ∀ o ∈ i.operands, Operand.cell o.toByte.value = o :=
    fun o ho => cell_value_toByte (isByte_of_wellFormed hwf o ho)
  have hops : (i.operands.map (fun o => o.toByte.value)).map Operand.cell = i.operands := by
    rw [List.map_map]
    exact (List.map_congr_left hcell).trans (List.map_id _)
  exact decode_eq_ok_iff.mpr ⟨_, hops.symm, by rw [map_value_encode, List.cons_append]⟩

/-- Settles O8: the operands decoded are cells of the list (`decode_eq_ok_iff`), each the value of a byte, so encoding
them gives those cells back. -/
theorem encodeOfDecode : Obligations.EncodeOfDecode := by
  intro bytes i rest h
  obtain ⟨ops, hops, hcells⟩ := decode_eq_ok_iff.mp h
  have hbyte : ∀ v ∈ ops, (Operand.cell v).toByte.value = v := by
    intro v hv
    have hmem : v ∈ bytes.map Byte.value := by simp [hcells, hv]
    obtain ⟨b, -, rfl⟩ := List.mem_map.mp hmem
    rw [toByte_value]
  have hmap : i.operands.map (fun o => o.toByte.value) = ops := by
    rw [hops, List.map_map]
    exact (List.map_congr_left hbyte).trans (List.map_id _)
  rw [map_value_encode, hmap, hcells, List.cons_append]

/-- Settles O4, by evaluating the decoder on each word. -/
theorem sampleWordsDecode : Obligations.SampleWordsDecode :=
  ⟨rfl, rfl, rfl, rfl, rfl, rfl, rfl⟩

/-! ## The opcode table -/

/-- An opcode value whose row is known selects that row's instruction (40_fetch_decode_execute.md R102). -/
theorem dispatch_ofOpcode {op : Int} {m : Mnemonic} (h : Mnemonic.ofOpcode op = some m) (b1 b2 : Operand) :
    dispatch op b1 b2 = some (m.assemble b1 b2) := by
  simp [dispatch, h]

theorem dispatch_opcode (m : Mnemonic) (b1 b2 : Operand) :
    dispatch m.opcode.value b1 b2 = some (m.assemble b1 b2) :=
  dispatch_ofOpcode (ofOpcode_opcode m) b1 b2

/-- A value selects no row exactly when it is the opcode of none, compared whole (30_encoding.md R73, R77). -/
theorem dispatch_eq_none_iff {op : Int} {b1 b2 : Operand} :
    dispatch op b1 b2 = none ↔ op ∉ Mnemonic.all.map (fun m => m.opcode.value) := by
  simp [dispatch, Mnemonic.ofOpcode]

/-- Settles O5: each opcode selects its own row, and only the opcodes of the 13 rows select one. -/
theorem opcodeTable : Obligations.OpcodeTable := by
  refine ⟨fun b1 b2 => ?rows, fun op b1 b2 => ?others, fun m => ⟨?n, ?r, ?ri, ?rr⟩⟩
  case rows =>
    exact ⟨dispatch_opcode .hlt b1 b2, dispatch_opcode .ldi b1 b2, dispatch_opcode .prn b1 b2, dispatch_opcode .add b1 b2,
      dispatch_opcode .mul b1 b2, dispatch_opcode .push b1 b2, dispatch_opcode .pop b1 b2, dispatch_opcode .call b1 b2,
      dispatch_opcode .ret b1 b2, dispatch_opcode .cmp b1 b2, dispatch_opcode .jmp b1 b2, dispatch_opcode .jeq b1 b2,
      dispatch_opcode .jne b1 b2⟩
  case others => exact dispatch_eq_none_iff
  case n => rintro (rfl | rfl) <;> exact ⟨rfl, rfl⟩
  case r => rintro (rfl | rfl | rfl | rfl | rfl | rfl | rfl) <;> exact ⟨rfl, rfl⟩
  case ri => rintro rfl; exact ⟨rfl, rfl⟩
  case rr => rintro (rfl | rfl | rfl) <;> exact ⟨rfl, rfl⟩

/-- The instruction selected depends only on the candidates its format has fields for (30_encoding.md R78). -/
theorem dispatch_congr {op : Int} {m : Mnemonic} {b1 b2 c1 c2 : Operand} (hm : Mnemonic.ofOpcode op = some m)
    (h : [b1, b2].take m.format.operandCount = [c1, c2].take m.format.operandCount) :
    dispatch op b1 b2 = dispatch op c1 c2 := by
  have hops : (m.assemble b1 b2).operands = (m.assemble c1 c2).operands := by rw [operands_assemble, operands_assemble, h]
  rw [dispatch_ofOpcode hm, dispatch_ofOpcode hm, instr_ext (by simp) hops]

end Sys2Proof

namespace Sys2Proof.Machine

/-! ## The fetch of the unused bytes -/

/-- The read of a candidate operand at an address that does not raise (40_fetch_decode_execute.md R100). -/
theorem candidate_of_address_ok {s : State} {v : Int} {a : Nat} (h : address s.params v = .ok a) :
    candidate s v = .ok (.cell (s.load a)) := by
  simp [candidate, h]

/-- Under `strict` a candidate operand raises where its address does (40_fetch_decode_execute.md R101). -/
theorem candidate_strict_of_address_error {s : State} {v : Int} {c : Cause} (hl : s.params.lookahead = .strict)
    (h : address s.params v = .error c) : candidate s v = .error c := by
  simp [candidate, h, hl]

/-- A fetch whose opcode address is valid raises what its first candidate raises, or else its second
(60_exceptions.md R179). -/
theorem fetch_of_candidate_error {s : State} {a : Nat} {c : Cause} (ha : address s.params s.pc = .ok a)
    (h : candidate s (s.pc + 1) = .error c ∨
      (∃ b1, candidate s (s.pc + 1) = .ok b1) ∧ candidate s (s.pc + 2) = .error c) :
    fetch s = .error c := by
  rcases h with h1 | ⟨⟨b1, h1⟩, h2⟩
  · simp [fetch, ha, h1]
  · simp [fetch, ha, h1, h2]

/-- A fetch that raises ends the run, before anything is decoded (60_exceptions.md R179). -/
theorem step_of_fetch_error {s : State} {c : Cause} (hs : s.status = .running) (hf : fetch s = .error c) :
    step s = .next (s.raise c) := by
  simp [step, cycle, hs, hf]

/-- Settles O6: N and R rows have no field for the bytes named, and the strict fetch raises before the dispatch. -/
theorem unusedBytesHaveNoEffect : Obligations.UnusedBytesHaveNoEffect := by
  refine ⟨fun op m b1 b2 c1 c2 hm hn => ?n, fun op m b1 b2 c2 hm hr => ?r, fun s c hs hl hpc hlook => ?fault⟩
  case n => exact dispatch_congr hm (by simp [hn, Format.operandCount])
  case r => exact dispatch_congr hm (by simp [hr, Format.operandCount])
  case fault =>
    obtain ⟨a, ha⟩ := hpc
    refine step_of_fetch_error hs (fetch_of_candidate_error ha ?_)
    rcases hlook with h1 | ⟨⟨a1, h1⟩, h2⟩
    · exact .inl (candidate_strict_of_address_error hl h1)
    · exact .inr ⟨⟨_, candidate_of_address_ok h1⟩, candidate_strict_of_address_error hl h2⟩

/-! ## An unrecognised opcode -/

/-- The opcode is in the parameter set `UNLISTED` (00_scope.md R6). -/
theorem opcodeUnlisted_iff {p : Params} {op : Int} :
    opcodeUnlisted p op = true ↔ ∃ b ∈ p.unlisted, (b.toNat : Int) = op := by
  simp [opcodeUnlisted, Byte.value]

/-- A fetched opcode that selects no row takes the `other` branch of the dispatch (40_fetch_decode_execute.md R102). -/
theorem step_of_dispatch_none {s : State} {op : Int} {b1 b2 : Operand} (hs : s.status = .running)
    (hf : fetch s = .ok (op, b1, b2)) (hd : dispatch op b1 b2 = none) : step s = .next (s.unrecognised op) := by
  simp [step, cycle, hs, hf, hd]

/-- Settles O11: the step is the `other` branch of the dispatch, and membership in `UNLISTED` selects its outcome. -/
theorem unrecognisedOpcodeEndsRun : Obligations.UnrecognisedOpcodeEndsRun := by
  intro s op b1 b2 hs hf hd
  rw [step_of_dispatch_none hs hf hd]
  rcases unrecognised_cases s op with ⟨hlisted, hu⟩ | ⟨hlisted, hu⟩ <;> rw [hu]
  · obtain ⟨b, hb, hop⟩ := opcodeUnlisted_iff.mp hlisted
    exact ⟨fun _ => rfl, fun hnot => absurd hop (hnot b hb)⟩
  · exact ⟨fun hmem => absurd (opcodeUnlisted_iff.mpr hmem) (by simp [hlisted]), fun _ => rfl⟩

end Sys2Proof.Machine
end

section
/-! Proofs of the statements about 40_fetch_decode_execute.md: what the fetch reads, that a step runs what it decoded, how
the run status changes, the two `LOOKAHEAD` settings, and a run that never ends. -/

namespace Sys2Proof.Machine

/-! ## What the fetch reads -/

/-- A fetch reads the opcode and then its two candidates (40_fetch_decode_execute.md R100); the converse of `fetch_ok`. -/
theorem fetch_of_candidates_ok {s : State} {a : Nat} {b1 b2 : Operand} (ha : address s.params s.pc = .ok a)
    (h1 : candidate s (s.pc + 1) = .ok b1) (h2 : candidate s (s.pc + 2) = .ok b2) :
    fetch s = .ok (s.load a, b1, b2) := by
  simp [fetch, ha, h1, h2]

/-- With its three addresses in range a fetch reads the three cells (40_fetch_decode_execute.md R100). -/
theorem fetch_of_addresses_ok {s : State} {a0 a1 a2 : Nat} (h0 : address s.params s.pc = .ok a0)
    (h1 : address s.params (s.pc + 1) = .ok a1) (h2 : address s.params (s.pc + 2) = .ok a2) :
    fetch s = .ok (s.load a0, .cell (s.load a1), .cell (s.load a2)) :=
  fetch_of_candidates_ok h0 (candidate_of_address_ok h1) (candidate_of_address_ok h2)

/-- A fetch raises first where the address of the opcode does (60_exceptions.md R179). -/
theorem fetch_of_address_error {s : State} {c : Cause} (h : address s.params s.pc = .error c) : fetch s = .error c := by
  simp [fetch, h]

/-- Under `lazy` the read of a candidate never raises: it is absent where its address raises, and else the cell
(40_fetch_decode_execute.md R101). -/
theorem candidate_lazy {s : State} (hl : s.params.lookahead = .lazy) (v : Int) :
    ∃ b, candidate s v = .ok b ∧ (∀ c, address s.params v = .error c → b = .absent v) ∧
      ∀ a, address s.params v = .ok a → b = .cell (s.load a) := by
  rcases candidate_cases s v with ⟨a, ha, hb⟩ | ⟨_, _, hstrict, _⟩ | ⟨c, hc, _, hb⟩
  · refine ⟨_, hb, fun c hc => ?_, fun a' ha' => ?_⟩
    · rw [ha] at hc; cases hc
    · rw [ha] at ha'; cases ha'; rfl
  · rw [hl] at hstrict; cases hstrict
  · exact ⟨_, hb, fun _ _ => rfl, fun a ha => by rw [hc] at ha; cases ha⟩

/-- Settles O10: the opcode's address is converted first, then the candidates are read in order, each as `LOOKAHEAD`
says. -/
theorem fetchReadsThreeCells : Obligations.FetchReadsThreeCells := by
  refine fun s => ⟨fun a0 a1 a2 h0 h1 h2 => fetch_of_addresses_ok h0 h1 h2, fun c h => fetch_of_address_error h,
    fun a0 c hl h0 h1 => ?first, fun a0 a1 c hl h0 h1 h2 => ?second, fun hl hpc => ?lazy⟩
  case first => exact fetch_of_candidate_error h0 (.inl (candidate_strict_of_address_error hl h1))
  case second =>
    exact fetch_of_candidate_error h0
      (.inr ⟨⟨_, candidate_of_address_ok h1⟩, candidate_strict_of_address_error hl h2⟩)
  case lazy =>
    obtain ⟨a, ha⟩ := hpc
    obtain ⟨b1, h1, habsent1, hcell1⟩ := candidate_lazy hl (s.pc + 1)
    obtain ⟨b2, h2, habsent2, hcell2⟩ := candidate_lazy hl (s.pc + 2)
    have hmod : (s.pc % 256).toNat = a := by rw [← address_ok ha, Int.toNat_natCast]
    refine ⟨b1, b2, ?_, habsent1, hcell1, habsent2, hcell2⟩
    rw [hmod]
    exact fetch_of_candidates_ok ha h1 h2

/-! ## A step runs what it decoded -/

/-- A running machine executes the instruction its fetched cells select (40_fetch_decode_execute.md R102, R103). -/
theorem step_of_dispatch_some {s : State} {op : Int} {b1 b2 : Operand} {i : Instr} (hs : s.status = .running)
    (hf : fetch s = .ok (op, b1, b2)) (hd : dispatch op b1 b2 = some i) : step s = exec i s := by
  simp [step, cycle, hs, hf, hd]

/-- Three cells that decode to an instruction dispatch to it as an opcode and two candidates. -/
theorem dispatch_of_decode {op x y : Int} {i : Instr} {rest : List Int} (h : decode [op, x, y] = .ok (i, rest)) :
    dispatch op (.cell x) (.cell y) = some i := by
  obtain ⟨m, tail, hcells, -, rfl, -⟩ := decode_ok h
  cases hcells
  exact dispatch_opcode m (.cell x) (.cell y)

/-- Settles O9: the cycle adds nothing around `exec`, and the decoder and the dispatch agree on three cells. -/
theorem stepRunsDecoded : Obligations.StepRunsDecoded :=
  ⟨fun _ _ _ _ _ hs hf hd => step_of_dispatch_some hs hf hd,
    fun _ _ _ _ _ _ hs h0 h1 h2 hdec => step_of_dispatch_some hs (fetch_of_addresses_ok h0 h1 h2) (dispatch_of_decode hdec)⟩

/-! ## How the run status changes -/

/-- A status other than `Running` enables no cycle (40_fetch_decode_execute.md R107). -/
theorem step_of_not_running {s : State} (hs : s.status ≠ .running) : step s = .fault (.runEnded s.status) := by
  rcases step_cases s with ⟨hr, _⟩ | ⟨hr, _⟩ | ⟨hr, _⟩ | ⟨_, h⟩
  · exact absurd hr hs
  · exact absurd hr hs
  · exact absurd hr hs
  · exact h

/-- Settles O12, from the cases of a step (`step_next_cases`) and of an instruction (`Effect.status_cases`). -/
theorem statusTransitions : Obligations.StatusTransitions := by
  refine ⟨fun s t h => ?transition, fun s op b1 b2 hs hf hd => ?hlt, fun s hs => step_of_not_running hs⟩
  case hlt => exact ⟨s.halt, step_of_dispatch_some hs hf hd, rfl⟩
  case transition =>
    obtain ⟨hs, -⟩ := step_status_cases h
    refine ⟨hs, ?_⟩
    rcases step_next_cases h with ⟨c, _, rfl⟩ | ⟨op, b1, b2, hf, hd, rfl⟩ | ⟨op, b1, b2, i, hf, hd, he⟩
    · exact .inr (.inr (.inl ⟨c, rfl⟩))
    · rcases unrecognised_cases s op with ⟨hlisted, hu⟩ | ⟨_, hu⟩ <;> rw [hu]
      · exact .inr (.inr (.inr ⟨op, b1, b2, hf, hd, opcodeUnlisted_iff.mp hlisted, rfl⟩))
      · exact .inr (.inr (.inl ⟨_, rfl⟩))
    · rcases (exec_effect he).status_cases with ⟨c, _, rfl⟩ | ⟨rfl, rfl⟩ | ⟨_, hkeep⟩
      · exact .inr (.inr (.inl ⟨c, rfl⟩))
      · exact .inr (.inl ⟨rfl, op, b1, b2, hf, hd⟩)
      · exact .inl (hkeep.trans hs)

/-! ## The `LOOKAHEAD` setting is read by the fetch alone -/

/-- `s` under another setting of `LOOKAHEAD` (00_scope.md R6). -/
def State.withLookahead (l : Lookahead) (s : State) : State :=
  { s with params := { s.params with lookahead := l } }

section
variable (l : Lookahead) (s : State)

/-- The address conversion does not read `LOOKAHEAD` (00_scope.md R11). -/
@[simp] theorem address_withLookahead (v : Int) : address (s.withLookahead l).params v = address s.params v := rfl

@[simp] theorem wr_withLookahead (v : Int) : (s.withLookahead l).params.wr v = s.params.wr v := rfl

@[simp] theorem sp_withLookahead : (s.withLookahead l).sp = s.sp := rfl

/-- A push does not read `LOOKAHEAD`. -/
theorem pushValue_withLookahead (v : Int) :
    (s.withLookahead l).pushValue v = State.withLookahead l <$> s.pushValue v := by
  simp only [State.pushValue, wr_withLookahead, sp_withLookahead, address_withLookahead]
  cases address s.params (s.params.wr (s.sp - 1)) <;> rfl

/-- A pop does not read `LOOKAHEAD`. -/
theorem popValue_withLookahead :
    (s.withLookahead l).popValue = (fun x => (x.1, x.2.withLookahead l)) <$> s.popValue := by
  simp only [State.popValue, sp_withLookahead, address_withLookahead]
  cases address s.params s.sp <;> rfl

/-- A transfer to a register does not read `LOOKAHEAD`. -/
theorem jumpTo_withLookahead (a : Operand) :
    jumpTo a (s.withLookahead l) = State.withLookahead l <$> jumpTo a s := by
  simp only [jumpTo, map_bind]
  rfl

/-- ADD, MUL and CMP do not read `LOOKAHEAD`. -/
theorem aluBody_withLookahead (op : AluTag) (a b : Operand) :
    aluBody op a b (s.withLookahead l) = State.withLookahead l <$> aluBody op a b s := by
  simp only [aluBody, map_bind]
  cases op <;> rfl

/-- An unrecognised opcode does not read `LOOKAHEAD` (40_fetch_decode_execute.md R102). -/
theorem unrecognised_withLookahead (op : Int) :
    (s.withLookahead l).unrecognised op = (s.unrecognised op).withLookahead l := by
  rcases unrecognised_cases s op with ⟨hlisted, hu⟩ | ⟨hlisted, hu⟩ <;> rw [hu]
  · exact if_pos hlisted
  · exact if_neg (ne_true_of_eq_false hlisted)

end

/-- A body that does not read `LOOKAHEAD` is committed, or raises, under any setting of it alike. -/
theorem commit_withLookahead {l : Lookahead} {s t : State} {r r' : Except Cause State} (h : s.commit r = .next t)
    (hr : r' = State.withLookahead l <$> r) : (s.withLookahead l).commit r' = .next (t.withLookahead l) := by
  subst hr
  cases r <;> cases h <;> rfl

/-- No instruction reads `LOOKAHEAD` (40_fetch_decode_execute.md R101). -/
theorem exec_withLookahead {i : Instr} {s t : State} (l : Lookahead) (h : exec i s = .next t) :
    exec i (s.withLookahead l) = .next (t.withLookahead l) := by
  cases i with
  | hlt => cases h; rfl
  | add a b | mul a b | cmp a b => exact commit_withLookahead h (aluBody_withLookahead l s _ a b)
  | jmp a => exact commit_withLookahead h (jumpTo_withLookahead l s a)
  | ldi a _ | prn a =>
    refine commit_withLookahead h ?_
    simp only [map_bind]
    rfl
  | push a | call a =>
    refine commit_withLookahead h ?_
    simp only [map_bind, pushValue_withLookahead, bind_map_left]
    rfl
  | pop a | ret =>
    refine commit_withLookahead h ?_
    simp only [map_bind, popValue_withLookahead, bind_map_left]
    rfl
  | jeq a | jne a =>
    refine commit_withLookahead h ?_
    simp only [map_bind, apply_ite (State.withLookahead l <$> ·), ← jumpTo_withLookahead]
    rfl

/-- A candidate the strict machine reads is read under any setting (40_fetch_decode_execute.md R101). -/
theorem candidate_withLookahead {s : State} {v : Int} {b : Operand} (l : Lookahead)
    (hl : s.params.lookahead = .strict) (h : candidate s v = .ok b) : candidate (s.withLookahead l) v = .ok b := by
  rcases candidate_cases s v with ⟨a, ha, hb⟩ | ⟨_, _, _, hb⟩ | ⟨_, _, hlazy, _⟩
  · rw [hb] at h
    rw [← h]
    exact candidate_of_address_ok ha
  · rw [hb] at h; cases h
  · rw [hl] at hlazy; cases hlazy

/-- Where the strict fetch does not raise, it reads the same under any setting (40_fetch_decode_execute.md R101). -/
theorem fetch_withLookahead {s : State} {op : Int} {b1 b2 : Operand} (l : Lookahead)
    (hl : s.params.lookahead = .strict) (h : fetch s = .ok (op, b1, b2)) :
    fetch (s.withLookahead l) = .ok (op, b1, b2) := by
  obtain ⟨a, ha, rfl, h1, h2⟩ := fetch_ok h
  exact fetch_of_candidates_ok ha (candidate_withLookahead l hl h1) (candidate_withLookahead l hl h2)

/-- Settles O14: the fetches agree, and what follows the fetch does not read `LOOKAHEAD`. -/
theorem lazyAgreesWhereStrictFetches : Obligations.LazyAgreesWhereStrictFetches := by
  intro s t x hl hs hf h
  change step (s.withLookahead .lazy) = .next (t.withLookahead .lazy)
  rcases step_next_cases h with ⟨c, hf', rfl⟩ | ⟨op, b1, b2, hf', hd, rfl⟩ | ⟨op, b1, b2, i, hf', hd, he⟩
  · rw [hf] at hf'; cases hf'
  · rw [← unrecognised_withLookahead]
    exact step_of_dispatch_none hs (fetch_withLookahead .lazy hl hf') hd
  · have hstep := step_of_dispatch_some (s := s.withLookahead .lazy) hs (fetch_withLookahead .lazy hl hf') hd
    exact hstep.trans (exec_withLookahead .lazy he)

/-! ## A run that never ends -/

/-- A JMP of a register sets `pc` to its value and cannot raise (44_control_transfer.md R157). -/
theorem exec_jmp_reg (r : Fin 8) (s : State) : exec (.jmp (regOp r)) s = .next (s.writePc (s.reg r)) := by
  simp [exec, execJmp]

/-- Writing to `pc` the value it holds changes nothing. -/
theorem writePc_eq_self {s : State} {v : Int} (h : s.params.tgt v = s.pc) : s.writePc v = s := by
  simp [State.writePc, h]

/-- A state that steps to itself stays the same for any number of steps. -/
theorem run_of_step_self {s : State} (h : step s = .next s) (n : Nat) : Host.Core.run core n s = .next s := by
  induction n with
  | zero => rfl
  | succ n ih =>
    have hcore : core.step s = .next s := h
    simp only [Host.Core.run, hcore, ih]

/-- A running state that steps to itself has not ended after any number of cycles (40_fetch_decode_execute.md R108). -/
theorem runFor_of_step_self {s : State} (hs : s.status = .running) (h : step s = .next s) (n : Nat) :
    runFor n s = .notYet s := by
  induction n with
  | zero => simp [runFor, hs]
  | succ n ih => simp [runFor, hs, h, ih]

/-- Settles O44: the JMP writes to `pc` the value it holds, so the machine steps to its own state. -/
theorem jumpToSelfNeverEnds : Obligations.JumpToSelfNeverEnds := by
  intro s b2 r hs hf hself n
  have hstep : step s = .next s := by
    rw [step_of_dispatch_some hs hf (dispatch_opcode .jmp (regOp r) b2)]
    exact (exec_jmp_reg r s).trans (congrArg _ (writePc_eq_self hself))
  exact ⟨run_of_step_self hstep n, runFor_of_step_self hs hstep n⟩

end Sys2Proof.Machine
end

section
/-! Proofs of the statements about 41_alu.md: the sum, the product and the comparison, their width, and the cause the ALU
raises for a foreign tag. -/

namespace Sys2Proof.Machine

/-! ## Faults of the fetch and of register operands -/

/-- A fetch that raises is the first thing that can (60_exceptions.md R179). -/
theorem fetchFaultsFirst (s : State) : FetchFaultsFirst s :=
  fun _ hs hf => ⟨fetch_error hf, step_of_fetch_error hs hf⟩

/-- A form that raises whatever its register operand raises faults on an absent operand and on a bad index
(60_exceptions.md R174, R175). -/
theorem operandFaults_of_registerOperand_error {form : Operand → Instr} {s : State}
    (h : ∀ {o c}, registerOperand o = .error c → Faults (form o) s c) : OperandFaults form s :=
  ⟨fun v => h (registerOperand_absent v), fun _ hx => h (registerIndex_bad hx)⟩

/-! ## The body ADD, MUL and CMP share -/

section
variable {op : AluTag} {s : State} {c : Cause}

/-- The first operand is checked before the second is referenced (60_exceptions.md R179). -/
theorem aluBody_of_first_error {a : Operand} (h : registerOperand a = .error c) (b : Operand) :
    aluBody op a b s = .error c := by
  simp [aluBody, h]

theorem aluBody_of_second_error {b : Operand} (h : registerOperand b = .error c) (ra : Fin 8) :
    aluBody op (regOp ra) b s = .error c := by
  simp [aluBody, h]

/-- On two registers the body commits what the ALU answers, and advances `pc` (41_alu.md R121 to R123). -/
theorem commit_aluBody_regs {ra rb : Fin 8} {t : State} (h : aluApply op ra rb s = .ok t) :
    s.commit (aluBody op (regOp ra) (regOp rb) s) = .next (t.advance 3) := by
  rw [aluBody_regs, h]
  rfl

/-- A form whose execution is the ALU body faults on its first operand, then on its second. -/
theorem operandPairFaults_of_aluBody {form : Operand → Operand → Instr}
    (hform : ∀ a b, exec (form a b) s = s.commit (aluBody op a b s)) : OperandPairFaults form s := by
  refine ⟨fun b => operandFaults_of_registerOperand_error fun ha => ?first,
    fun ra => operandFaults_of_registerOperand_error fun hb => ?second⟩
  case first => exact (hform _ b).trans (congrArg s.commit (aluBody_of_first_error ha b))
  case second => exact (hform _ _).trans (congrArg s.commit (aluBody_of_second_error hb ra))

end

/-! ## Sum and product -/

/-- ADD of two registers writes their sum, and cannot raise (41_alu.md R121). -/
theorem exec_add_regs (ra rb : Fin 8) (s : State) :
    exec (.add (regOp ra) (regOp rb)) s = .next ((s.writeReg ra (s.regs[ra] + s.regs[rb])).advance 3) :=
  commit_aluBody_regs rfl

/-- MUL of two registers writes their product, and cannot raise (41_alu.md R122). -/
theorem exec_mul_regs (ra rb : Fin 8) (s : State) :
    exec (.mul (regOp ra) (regOp rb)) s = .next ((s.writeReg ra (s.regs[ra] * s.regs[rb])).advance 3) :=
  commit_aluBody_regs rfl

/-- Settles O16: the ALU answers the sum for two registers, and the body it shares with MUL and CMP raises in order. -/
theorem addWritesSum : Obligations.AddWritesSum :=
  fun s => ⟨dispatch_opcode .add, fun ra rb => exec_add_regs ra rb s,
    operandPairFaults_of_aluBody fun _ _ => rfl, fetchFaultsFirst s⟩

/-- Settles O17: the ALU answers the product for two registers, and the body it shares with ADD and CMP raises in order. -/
theorem mulWritesProduct : Obligations.MulWritesProduct :=
  fun s => ⟨dispatch_opcode .mul, fun ra rb => exec_mul_regs ra rb s,
    operandPairFaults_of_aluBody fun _ _ => rfl, fetchFaultsFirst s⟩

/-- Settles O31: either form writes its exact result through `wr`, whose width is `widthPrimitives`. -/
theorem arithmeticWidth : Obligations.ArithmeticWidth := by
  intro s t ra rb full h
  have ht : t = (s.writeReg ra full).advance 3 := by
    rcases h with ⟨h, rfl⟩ | ⟨h, rfl⟩
    · rw [exec_add_regs] at h; cases h; rfl
    · rw [exec_mul_regs] at h; cases h; rfl
  have hreg : t.regs[ra] = s.params.wr full := by
    rw [ht]
    exact regs_set_same s.regs ra (s.params.wr full)
  obtain ⟨hreference, hwrap8⟩ := widthPrimitives s.params full
  rw [hreg]
  exact ⟨fun ha => (hreference ha).1, fun ha => (hwrap8 ha).1, by rw [ht]; rfl⟩

/-! ## The comparison -/

/-- Which flag each outcome of the signed comparison gives (41_alu.md R123). -/
theorem compareFlag_cases (x y : Int) :
    (x < y ∧ compareFlag x y = .less) ∨ (x > y ∧ compareFlag x y = .greater) ∨ (x = y ∧ compareFlag x y = .equal) := by
  unfold compareFlag
  rcases lt_trichotomy x y with hlt | heq | hgt
  · exact .inl ⟨hlt, if_pos hlt⟩
  · exact .inr (.inr ⟨heq, by simp [heq]⟩)
  · exact .inr (.inl ⟨hgt, by simp [hgt, hgt.le]⟩)

/-- The flag of a comparison is one of the three, and says which of the three outcomes holds (41_alu.md R123). -/
theorem compareFlag_spec (x y : Int) :
    (compareFlag x y = .less ↔ x < y) ∧ (compareFlag x y = .greater ↔ x > y) ∧ (compareFlag x y = .equal ↔ x = y) ∧
      compareFlag x y ≠ .none := by
  rcases compareFlag_cases x y with ⟨h, hf⟩ | ⟨h, hf⟩ | ⟨h, hf⟩ <;> rw [hf] <;> simp <;> omega

/-- CMP of two registers sets the flag of their comparison, and cannot raise (41_alu.md R123). -/
theorem exec_cmp_regs (ra rb : Fin 8) (s : State) :
    exec (.cmp (regOp ra) (regOp rb)) s = .next ((s.writeFlag (compareFlag s.regs[ra] s.regs[rb])).advance 3) :=
  commit_aluBody_regs rfl

/-- Settles O18: the flag is the comparison's, and the body CMP shares with ADD and MUL raises in order. -/
theorem cmpSetsExactlyOneFlag : Obligations.CmpSetsExactlyOneFlag :=
  fun s => ⟨dispatch_opcode .cmp,
    fun ra rb => ⟨compareFlag s.regs[ra] s.regs[rb], exec_cmp_regs ra rb s, compareFlag_spec _ _⟩,
    operandPairFaults_of_aluBody fun _ _ => rfl, fetchFaultsFirst s⟩

/-! ## The cause no step raises -/

/-- Where the cause a step ends with comes from: the fetch, an unrecognised opcode, or the instruction executed
(60_exceptions.md R172 to R176). -/
theorem step_faulted_cases {s t : State} {c : Cause} {p : Int} (h : step s = .next t) (ht : t.status = .faulted c p) :
    fetch s = .error c ∨
    (∃ op b1 b2, fetch s = .ok (op, b1, b2) ∧ dispatch op b1 b2 = none ∧ c = .unknownOpcode op) ∨
    ∃ op b1 b2 i, fetch s = .ok (op, b1, b2) ∧ dispatch op b1 b2 = some i ∧ Raises s i c := by
  obtain ⟨hrun, -⟩ := step_status_cases h
  obtain ⟨-, rfl⟩ := step_faulted h ht
  rcases step_next_cases h with ⟨d, hf, hd⟩ | ⟨op, b1, b2, hf, hd, hu⟩ | ⟨op, b1, b2, i, hf, hd, he⟩
  case inl =>
    obtain rfl := raise_inj hd
    exact .inl hf
  case inr.inl =>
    rcases unrecognised_cases s op with ⟨_, hu'⟩ | ⟨_, hu'⟩
    · cases congrArg State.status (hu.trans hu')
    · exact .inr (.inl ⟨op, b1, b2, hf, hd, raise_inj (hu.trans hu')⟩)
  case inr.inr =>
    rcases (exec_effect he).status_cases with ⟨d, hraises, hc⟩ | ⟨_, hhalt⟩ | ⟨_, hkeep⟩
    · obtain rfl := raise_inj hc
      exact .inr (.inr ⟨op, b1, b2, i, hf, hd, hraises⟩)
    · cases congrArg State.status hhalt
    · cases hkeep.trans hrun

/-- No instruction gives the ALU a foreign tag (41_alu.md R124). -/
theorem not_raises_unsupportedAluOp {s : State} {i : Instr} {tag : AluTag} : ¬ Raises s i (.unsupportedAluOp tag)
  | .pushAddress _ _ ha | .popAddress _ _ ha => nomatch (address_error ha).1

/-- Settles O39: the fetch raises only `AddressOutOfRange`, the dispatch only `UnknownOpcode`, and no instruction this. -/
theorem unsupportedAluOpUnreachable : Obligations.UnsupportedAluOpUnreachable := by
  refine ⟨fun _ _ _ _ => rfl, fun s t tag p h ht => ?_⟩
  rcases step_faulted_cases h ht with hf | ⟨_, _, _, _, _, hc⟩ | ⟨_, _, _, _, _, _, hraises⟩
  · obtain ⟨_, hc⟩ := fetch_error hf
    cases hc
  · cases hc
  · exact not_raises_unsupportedAluOp hraises

end Sys2Proof.Machine
end

section
/-! Proofs of the statements about 42_stack.md: the two stack helpers, PUSH and POP, and that a pop undoes a push. -/

namespace Sys2Proof

/-! ## Widths of the stack pointer -/

/-- Masking a value before an addition does not change the masked sum (00_scope.md R10). -/
theorem Params.wr_wr_add (p : Params) (v d : Int) : p.wr (p.wr v + d) = p.wr (v + d) := by
  cases ha : p.arith with
  | reference => rw [p.wr_reference ha v]
  | wrap8 =>
    have hmod : (sext8 (v % 256) + d) % 256 = (v + d) % 256 := by
      rw [Int.add_emod, sext8_mod, Int.emod_emod, ← Int.add_emod]
    rw [p.wr_wrap8 ha, p.wr_wrap8 ha, p.wr_wrap8 ha, hmod]

/-- A value a register can hold is written as it is (00_scope.md R10, 10_state.md R21). -/
theorem Params.wr_of_range {p : Params} {v : Int} (h : p.arith = .wrap8 → -128 ≤ v ∧ v ≤ 127) : p.wr v = v := by
  cases ha : p.arith with
  | reference => exact p.wr_reference ha v
  | wrap8 => rw [p.wr_wrap8 ha, sext8_of_range (h ha).1 (h ha).2]

end Sys2Proof

namespace Sys2Proof.Machine

section
variable {s : State} {ad : Nat} {c : Cause}

/-! ## The stack helpers -/

theorem pushValue_ok (h : address s.params (s.params.wr (s.sp - 1)) = .ok ad) (v : Int) :
    s.pushValue v = .ok ((s.writeReg spIndex (s.sp - 1)).store ad v) := by
  simp only [State.pushValue, h]

theorem pushValue_error (h : address s.params (s.params.wr (s.sp - 1)) = .error c) (v : Int) :
    s.pushValue v = .error c := by
  simp only [State.pushValue, h]

theorem popValue_ok (h : address s.params s.sp = .ok ad) :
    s.popValue = .ok (s.load ad, s.writeReg spIndex (s.sp + 1)) := by
  simp only [State.popValue, h]

theorem popValue_error (h : address s.params s.sp = .error c) : s.popValue = .error c := by
  simp only [State.popValue, h]

/-! ## PUSH and POP of a register -/

/-- PUSH stores the register's value from before SP moved (42_stack.md R132). -/
theorem exec_push_reg (r : Fin 8) (h : address s.params (s.params.wr (s.sp - 1)) = .ok ad) :
    exec (.push (regOp r)) s = .next (((s.writeReg spIndex (s.sp - 1)).store ad (s.reg r)).advance 2) := by
  simp [exec, execPush, pushValue_ok h]

theorem push_reg_faults (r : Fin 8) (h : address s.params (s.params.wr (s.sp - 1)) = .error c) :
    Faults (.push (regOp r)) s c := by
  simp [Faults, exec, execPush, pushValue_error h, State.raise]

/-- POP writes the register after SP moved (42_stack.md R133). -/
theorem exec_pop_reg (r : Fin 8) (h : address s.params s.sp = .ok ad) :
    exec (.pop (regOp r)) s = .next (((s.writeReg spIndex (s.sp + 1)).writeReg r (s.load ad)).advance 2) := by
  simp [exec, execPop, popValue_ok h]

theorem pop_reg_faults (r : Fin 8) (h : address s.params s.sp = .error c) : Faults (.pop (regOp r)) s c := by
  simp [Faults, exec, execPop, popValue_error h, State.raise]

end

/-- PUSH checks its operand before the stack address (60_exceptions.md R179). -/
theorem push_operandFaults (s : State) : OperandFaults .push s :=
  operandFaults_of_registerOperand_error fun h => by simp [Faults, exec, execPush, h, State.raise]

/-- POP checks its operand before the stack address (60_exceptions.md R179). -/
theorem pop_operandFaults (s : State) : OperandFaults .pop s :=
  operandFaults_of_registerOperand_error fun h => by simp [Faults, exec, execPop, h, State.raise]

/-- A PUSH that does not fault had an address for its cell, and committed the push there. -/
theorem exec_push_running {s t : State} {r : Fin 8} (h : exec (.push (regOp r)) s = .next t)
    (ht : t.status = .running) :
    ∃ ad, address s.params (s.params.wr (s.sp - 1)) = .ok ad ∧
      t = ((s.writeReg spIndex (s.sp - 1)).store ad (s.reg r)).advance 2 := by
  cases had : address s.params (s.params.wr (s.sp - 1)) with
  | ok ad =>
    rw [exec_push_reg r had] at h
    cases h
    exact ⟨ad, rfl, rfl⟩
  | error c =>
    rw [push_reg_faults r had] at h
    cases h
    cases ht

/-! ## The statements -/

/-- Settles O19: the helper stores at `A(wr(SP - 1))`, and a write is read back in its own cell only. -/
theorem pushHelper : Obligations.PushHelper := by
  refine fun s v => ⟨fun ad h => ?inRange, fun c h => ⟨(address_error h).1, pushValue_error h v⟩⟩
  have hsp : (s.regs.set spIndex (s.params.wr (s.regs[spIndex] - 1)))[spIndex] =
      s.params.wr (s.regs[spIndex] - 1) := regs_set_same _ _ _
  exact ⟨_, pushValue_ok h v, rfl, (congrArg (address s.params) hsp).trans h,
    fun hwf => Memory.read_write_same hwf ad _, fun x hx => Memory.read_write_ne _ _ hx⟩

/-- Settles O20: the helper reads at `A(SP)` and writes SP alone. -/
theorem popHelper : Obligations.PopHelper :=
  fun _ => ⟨fun _ h => popValue_ok h, fun _ h => ⟨(address_error h).1, popValue_error h⟩⟩

/-- Settles O21: PUSH of a register is the push helper and the advance of `pc`. -/
theorem pushStoresRegister : Obligations.PushStoresRegister :=
  fun s => ⟨dispatch_opcode .push, fun r _ h => exec_push_reg r h, fun r _ h => push_reg_faults r h,
    push_operandFaults s, fetchFaultsFirst s⟩

/-- Settles O22: the write of the popped value comes after the write of SP, so it is the one that stays when the register
is SP itself. -/
theorem popWritesRegister : Obligations.PopWritesRegister := by
  refine fun s => ⟨dispatch_opcode .pop, fun r ad h => ⟨_, exec_pop_reg r h, rfl, ?popped, ?sp, ?others⟩,
    fun r _ h => pop_reg_faults r h, pop_operandFaults s, fetchFaultsFirst s⟩
  case popped => exact regs_set_same _ _ _
  case sp => exact fun hr => (regs_set_ne _ _ hr).trans (regs_set_same _ _ _)
  case others => exact fun j hr hsp => (regs_set_ne _ _ (Ne.symm hr)).trans (regs_set_ne _ _ (Ne.symm hsp))

/-- Settles O42: the pop reads the cell the push wrote, `wr` recovers what `cell` stored, and the two moves of SP cancel. -/
theorem pushPopRoundTrip : Obligations.PushPopRoundTrip := by
  intro s t ra rb ⟨_, hwf, hdomains⟩ hrb _ hpush ht
  have hrange (j : Fin 8) (ha : s.params.arith = .wrap8) : -128 ≤ s.regs[j] ∧ s.regs[j] ≤ 127 := (hdomains ha).1 j
  obtain ⟨ad, had, hpushed⟩ := exec_push_running hpush ht
  have hparams : t.params = s.params := by rw [hpushed]; rfl
  have htsp : t.regs[spIndex] = s.params.wr (s.regs[spIndex] - 1) := by rw [hpushed]; exact regs_set_same _ _ _
  have hread : t.mem.read ad = s.params.cell s.regs[ra] := by rw [hpushed]; exact Memory.read_write_same hwf ad _
  obtain ⟨-, hpop, -⟩ := popWritesRegister t
  obtain ⟨u, hu, hframe, hpopped, hsp, -⟩ := hpop rb ad (by rw [hparams, htsp]; exact had)
  refine ⟨u, hu, by rw [hframe]; exact ht, ?value, ?sp⟩
  case value =>
    calc u.regs[rb] = s.params.wr (s.params.cell s.regs[ra]) := by rw [hpopped, hparams, hread]
      _ = s.regs[ra] := Params.wr_cell (hrange ra)
  case sp =>
    calc u.regs[spIndex] = s.params.wr (s.params.wr (s.regs[spIndex] - 1) + 1) := by rw [hsp hrb, hparams, htsp]
      _ = s.params.wr (s.regs[spIndex] - 1 + 1) := s.params.wr_wr_add _ _
      _ = s.params.wr s.regs[spIndex] := by rw [sub_add_cancel]
      _ = s.regs[spIndex] := Params.wr_of_range (hrange spIndex)

end Sys2Proof.Machine
end

section
/-! Proofs of the statements about 43_register_io.md: LDI and PRN. -/

namespace Sys2Proof.Machine

/-! ## LDI -/

/-- LDI of a register and a present immediate writes the immediate, and cannot raise (43_register_io.md R140). -/
theorem exec_ldi_reg_cell (r : Fin 8) (v : Int) (s : State) :
    exec (.ldi (regOp r) (.cell v)) s = .next ((s.writeReg r v).advance 3) := by
  simp [exec, execLdi]

/-- LDI checks its index before it references the immediate, whatever that is (60_exceptions.md R179, log entry 6). -/
theorem ldi_operandFaults (imm : Operand) (s : State) : OperandFaults (fun a => .ldi a imm) s :=
  operandFaults_of_registerOperand_error fun h => by simp [Faults, exec, execLdi, h, State.raise]

/-- With its index checked, LDI raises what its absent immediate raises (43_register_io.md R140, log entry 6). -/
theorem ldi_reg_absent_faults (r : Fin 8) (v : Int) (s : State) :
    Faults (.ldi (regOp r) (.absent v)) s (.addressOutOfRange v) := by
  simp [Faults, exec, execLdi, State.raise]

/-- Settles O23: LDI of a register writes a present immediate, and raises its index before its absent immediate. -/
theorem ldiLoadsImmediate : Obligations.LdiLoadsImmediate :=
  fun s => ⟨dispatch_opcode .ldi, fun r v => exec_ldi_reg_cell r v s, fun imm => ldi_operandFaults imm s,
    fun r v => ldi_reg_absent_faults r v s, fetchFaultsFirst s⟩

/-! ## PRN -/

/-- PRN checks its index before it emits (43_register_io.md R141, 60_exceptions.md R179). -/
theorem prn_operandFaults (s : State) : OperandFaults .prn s :=
  operandFaults_of_registerOperand_error fun h => by simp [Faults, exec, execPrn, h, State.raise]

/-- Settles O24: PRN of a register emits its value, and a bad operand raises before anything is emitted. -/
theorem prnEmitsRegister : Obligations.PrnEmitsRegister :=
  fun s => ⟨dispatch_opcode .prn, fun r => exec_prn_reg r s, prn_operandFaults s, fetchFaultsFirst s⟩

end Sys2Proof.Machine
end

section
/-! Proofs of the statements about 44_control_transfer.md: HLT, CALL, RET, the three jumps, and that a RET undoes its
CALL. -/

namespace Sys2Proof.Machine

/-! ## HLT -/

/-- Settles O25: the halted state is not running, so it takes no cycle (`step_of_not_running`). -/
theorem hltStopsTheRun : Obligations.HltStopsTheRun := by
  refine fun s => ⟨dispatch_opcode .hlt, rfl, fun t h => ?_⟩
  cases h
  exact step_of_not_running (s := s.halt) (by simp)

/-! ## CALL and RET -/

section
variable {s : State} {ad : Nat} {c : Cause}

/-- CALL reads its target register after the push moved SP (44_control_transfer.md R151). -/
theorem exec_call_reg (r : Fin 8) (h : address s.params (s.params.wr (s.sp - 1)) = .ok ad) :
    exec (.call (regOp r)) s = .next
      (((s.writeReg spIndex (s.sp - 1)).store ad (s.pc + 2)).writePc ((s.writeReg spIndex (s.sp - 1)).reg r)) := by
  simp [exec, execCall, pushValue_ok h]

theorem call_reg_faults (r : Fin 8) (h : address s.params (s.params.wr (s.sp - 1)) = .error c) :
    Faults (.call (regOp r)) s c := by
  simp [Faults, exec, execCall, pushValue_error h, State.raise]

/-- RET transfers to the cell at `A(SP)` (44_control_transfer.md R152). -/
theorem exec_ret (h : address s.params s.sp = .ok ad) :
    exec .ret s = .next ((s.writeReg spIndex (s.sp + 1)).writePc (s.load ad)) := by
  simp [exec, execRet, popValue_ok h]

theorem ret_faults (h : address s.params s.sp = .error c) : Faults .ret s c := by
  simp [Faults, exec, execRet, popValue_error h, State.raise]

end

/-- CALL checks its operand before the stack address (60_exceptions.md R179). -/
theorem call_operandFaults (s : State) : OperandFaults .call s :=
  operandFaults_of_registerOperand_error fun h => by simp [Faults, exec, execCall, h, State.raise]

/-- A register after a write of SP: SP itself holds the new value, every other register its old one. -/
theorem reg_writeReg_sp (s : State) (v : Int) (r : Fin 8) :
    (s.writeReg spIndex v).reg r = if r = spIndex then s.params.wr v else s.regs[r] := by
  split
  · next hr => rw [hr]; exact regs_set_same _ _ _
  · next hr => exact regs_set_ne _ _ (Ne.symm hr)

/-- A CALL that does not fault had an address for the return cell, and committed the push there. -/
theorem exec_call_running {s t : State} {r : Fin 8} (h : exec (.call (regOp r)) s = .next t)
    (ht : t.status = .running) :
    ∃ ad, address s.params (s.params.wr (s.sp - 1)) = .ok ad ∧
      t = ((s.writeReg spIndex (s.sp - 1)).store ad (s.pc + 2)).writePc ((s.writeReg spIndex (s.sp - 1)).reg r) := by
  cases had : address s.params (s.params.wr (s.sp - 1)) with
  | ok ad =>
    rw [exec_call_reg r had] at h
    cases h
    exact ⟨ad, rfl, rfl⟩
  | error c =>
    rw [call_reg_faults r had] at h
    cases h
    cases ht

/-- Settles O26: CALL of a register is the push of `pc + 2` and a transfer to that register as the push left it. -/
theorem callPushesThenJumps : Obligations.CallPushesThenJumps := by
  refine fun s => ⟨dispatch_opcode .call, fun r ad h => ?inRange, fun r _ h => call_reg_faults r h,
    call_operandFaults s, fetchFaultsFirst s⟩
  rw [exec_call_reg r h, reg_writeReg_sp]
  rfl

/-- Settles O27: RET is the pop helper and a transfer to the value popped. -/
theorem retPopsTarget : Obligations.RetPopsTarget :=
  fun s => ⟨dispatch_opcode .ret, fun _ h => exec_ret h, fun _ h => ⟨(address_error h).1, ret_faults h⟩,
    fetchFaultsFirst s⟩

/-- Moving SP down and up again gives its value back, since a register of the invariant holds what `wr` keeps
(00_scope.md R10, 10_state.md R21). -/
theorem State.Inv.wr_sp_down_up {s : State} (h : s.Inv) :
    s.params.wr (s.params.wr (s.regs[spIndex] - 1) + 1) = s.regs[spIndex] := by
  obtain ⟨-, -, hdomains⟩ := h
  have hsp : s.params.wr s.regs[spIndex] = s.regs[spIndex] :=
    Params.wr_of_range fun ha => (hdomains ha).1 spIndex
  rw [Params.wr_wr_add, sub_add_cancel, hsp]

/-- Settles O43: the RET reads the cell the CALL wrote, `tgt` forgets what `cell` masked, and the two moves of SP cancel. -/
theorem callRetLaw : Obligations.CallRetLaw := by
  intro s t u r hinv _ hcall ht huparams husp hucell
  have ⟨_, hwf, _⟩ := hinv
  obtain ⟨ad, had, hcalled⟩ := exec_call_running hcall ht
  have htsp : t.regs[spIndex] = s.params.wr (s.regs[spIndex] - 1) := by rw [hcalled]; exact regs_set_same _ _ _
  have htaddr : address t.params t.regs[spIndex] = .ok ad := by rw [htsp, hcalled]; exact had
  have htcell : t.mem.read ad = s.params.cell (s.pc + 2) := by rw [hcalled]; exact Memory.read_write_same hwf ad _
  have husp' : u.regs[spIndex] = s.params.wr (s.regs[spIndex] - 1) := husp.trans htsp
  have huaddr : address u.params u.sp = .ok ad := by rw [State.sp_eq, huparams, husp']; exact had
  refine ⟨_, exec_ret huaddr, ?pc, ?sp, rfl⟩
  case pc =>
    calc u.params.tgt (u.mem.read ad) = s.params.tgt (s.params.cell (s.pc + 2)) := by
          rw [huparams, hucell ad htaddr, htcell]
      _ = s.params.tgt (s.pc + 2) := s.params.tgt_cell _
  case sp =>
    calc (u.regs.set spIndex (u.params.wr (u.regs[spIndex] + 1)))[spIndex]
        = u.params.wr (u.regs[spIndex] + 1) := regs_set_same _ _ _
      _ = s.params.wr (s.params.wr (s.regs[spIndex] - 1) + 1) := by rw [huparams, husp']
      _ = s.regs[spIndex] := hinv.wr_sp_down_up

/-! ## JMP -/

/-- JMP raises what its register operand raises (44_control_transfer.md R157). -/
theorem jmp_operandFaults (s : State) : OperandFaults .jmp s :=
  operandFaults_of_registerOperand_error fun h => by simp [Faults, exec, execJmp, jumpTo, h, State.raise]

/-- Settles O28: JMP of a register is a transfer to its value, and nothing checks that value. -/
theorem jmpJumpsToRegister : Obligations.JmpJumpsToRegister :=
  fun s => ⟨dispatch_opcode .jmp, fun r => exec_jmp_reg r s, jmp_operandFaults s, fetchFaultsFirst s⟩

/-! ## JEQ and JNE -/

section
variable {s : State}

/-- The flag `Equal` passes the check of JEQ and JNE (10_state.md R31). -/
theorem flagsCheck_of_equal (h : s.fl = .equal) : s.flagsCheck = .ok () := by
  simp [State.flagsCheck, h]

/-- The states in which a conditional jump goes the way of "not equal" (44_control_transfer.md R160): they pass the check,
and their flag is not `Equal`. -/
theorem flagsCheck_of_notEqual
    (h : s.fl = .less ∨ s.fl = .greater ∨ (s.fl = .none ∧ s.params.flagsUnset = .notEqual)) :
    s.flagsCheck = .ok () ∧ s.fl ≠ .equal := by
  rcases h with h | h | ⟨h, hu⟩
  · simp [State.flagsCheck, h]
  · simp [State.flagsCheck, h]
  · simp [State.flagsCheck, h, hu]

/-- Under `FLAGS_UNSET = fault` an unset flag raises (10_state.md R31, the spec's decision D8). -/
theorem flagsCheck_of_none (h : s.fl = .none) (hu : s.params.flagsUnset = .fault) :
    s.flagsCheck = .error .flagsUnset := by
  simp [State.flagsCheck, h, hu]

/-- A taken JEQ is a JMP (44_control_transfer.md R158). -/
theorem exec_jeq_taken (h : s.fl = .equal) (a : Operand) : exec (.jeq a) s = exec (.jmp a) s := by
  simp [exec, execJeq, execJmp, flagsCheck_of_equal h, h]

/-- A JEQ that is not taken references no operand (44_control_transfer.md R158). -/
theorem exec_jeq_notTaken (hc : s.flagsCheck = .ok ()) (h : s.fl ≠ .equal) (a : Operand) :
    exec (.jeq a) s = .next (s.advance 2) := by
  simp [exec, execJeq, hc, h]

theorem jeq_faults {c : Cause} (hc : s.flagsCheck = .error c) (a : Operand) : Faults (.jeq a) s c := by
  simp [Faults, exec, execJeq, hc, State.raise]

/-- A taken JNE is a JMP (44_control_transfer.md R159). -/
theorem exec_jne_taken (hc : s.flagsCheck = .ok ()) (h : s.fl ≠ .equal) (a : Operand) :
    exec (.jne a) s = exec (.jmp a) s := by
  simp [exec, execJne, execJmp, hc, h]

/-- A JNE that is not taken references no operand (44_control_transfer.md R159). -/
theorem exec_jne_notTaken (h : s.fl = .equal) (a : Operand) : exec (.jne a) s = .next (s.advance 2) := by
  simp [exec, execJne, flagsCheck_of_equal h, h]

theorem jne_faults {c : Cause} (hc : s.flagsCheck = .error c) (a : Operand) : Faults (.jne a) s c := by
  simp [Faults, exec, execJne, hc, State.raise]

/-- A form that executes as JMP does transfers to its register, and raises what that operand raises. -/
theorem jumps_of_exec_eq_jmp {form : Operand → Instr} (h : ∀ a, exec (form a) s = exec (.jmp a) s) :
    (∀ r : Fin 8, exec (form (regOp r)) s = .next { s with pc := s.params.tgt s.regs[r] }) ∧ OperandFaults form s := by
  obtain ⟨habsent, hbad⟩ := jmp_operandFaults s
  exact ⟨fun r => (h _).trans (exec_jmp_reg r s), fun v => (h _).trans (habsent v), fun x hx => (h _).trans (hbad x hx)⟩

end

/-- Settles O29: on `Equal` JEQ executes as JMP does; otherwise it advances, or the flags check raises. -/
theorem jeqJumpsOnEqual : Obligations.JeqJumpsOnEqual := by
  refine fun s => ⟨dispatch_opcode .jeq, fun h => jumps_of_exec_eq_jmp (exec_jeq_taken h), fun h => ?notTaken,
    fun h hu => jeq_faults (flagsCheck_of_none h hu), fetchFaultsFirst s⟩
  obtain ⟨hc, hne⟩ := flagsCheck_of_notEqual h
  exact exec_jeq_notTaken hc hne

/-- Settles O30: unless the flag is `Equal` JNE executes as JMP does; on `Equal` it advances; or the flags check raises. -/
theorem jneJumpsUnlessEqual : Obligations.JneJumpsUnlessEqual := by
  refine fun s => ⟨dispatch_opcode .jne, fun h => ?taken, exec_jne_notTaken,
    fun h hu => jne_faults (flagsCheck_of_none h hu), fetchFaultsFirst s⟩
  obtain ⟨hc, hne⟩ := flagsCheck_of_notEqual h
  exact jumps_of_exec_eq_jmp (exec_jne_taken hc hne)

end Sys2Proof.Machine
end

section
/-! Proof of the statement about 60_exceptions.md: where the cause `FlagsUnset` comes from. -/

namespace Sys2Proof.Machine

/-- Only the flags check of JEQ and JNE raises `FlagsUnset` (60_exceptions.md R176): an address raises another cause. -/
theorem Raises.flagsUnset_cases {s : State} {i : Instr} (h : Raises s i .flagsUnset) :
    ((∃ a, i = .jeq a) ∨ ∃ a, i = .jne a) ∧ s.fl = .none ∧ s.params.flagsUnset = .fault := by
  cases h with
  | pushAddress _ _ ha | popAddress _ _ ha => cases (address_error ha).1
  | flags hi hf hu => exact ⟨hi, hf, hu⟩

/-- A step that ends in `FlagsUnset` raised it in the instruction fetched: the fetch raises only `AddressOutOfRange`, the
dispatch only `UnknownOpcode`. -/
theorem step_flagsUnset {s t : State} {p : Int} (h : step s = .next t) (ht : t.status = .faulted .flagsUnset p) :
    ∃ op b1 b2 i, fetch s = .ok (op, b1, b2) ∧ dispatch op b1 b2 = some i ∧ Raises s i .flagsUnset := by
  rcases step_faulted_cases h ht with hf | ⟨_, _, _, _, _, hc⟩ | hraised
  · obtain ⟨_, hc⟩ := fetch_error hf
    cases hc
  · cases hc
  · exact hraised

/-- Settles O40: the jump that raised it is the row of its opcode, so its operand is the first candidate. -/
theorem flagsUnsetOnlyWhenAsked : Obligations.FlagsUnsetOnlyWhenAsked := by
  intro s t p h ht
  obtain ⟨op, b1, b2, i, hf, hd, hraises⟩ := step_flagsUnset h ht
  obtain ⟨hjump, hfl, hunset⟩ := hraises.flagsUnset_cases
  refine ⟨hfl, hunset, op, b1, b2, hf, ?_⟩
  rcases hjump with ⟨a, rfl⟩ | ⟨a, rfl⟩
  · obtain rfl : a = b1 := Instr.jeq.inj (dispatch_some hd).2
    exact .inl hd
  · obtain rfl : a = b1 := Instr.jne.inj (dispatch_some hd).2
    exact .inr hd

end Sys2Proof.Machine
end

section
/-! Proof of the statement about 70_reset_and_hazards.md: what a program load places and what it leaves unchanged. -/

namespace Sys2Proof.Machine

/-- A load leaves every cell outside the image's own addresses unchanged. -/
theorem Memory.read_loadFrom_outside (m : Memory) (k : Nat) (image : List Byte) {x : Nat}
    (hx : x < k ∨ k + image.length ≤ x) : (Memory.loadFrom m k image).read x = m.read x := by
  induction image generalizing m k with
  | nil => rfl
  | cons b rest ih =>
    rw [List.length_cons] at hx
    calc (Memory.loadFrom (m.write k b.value) (k + 1) rest).read x
      _ = (m.write k b.value).read x := ih _ (k + 1) (by omega)
      _ = m.read x := Memory.read_write_ne m b.value (by omega)

/-- A load into canonical memory puts byte `j` of the image at address `k + j`: the first byte is written now and the
rest of the load is above it; a later byte is placed by the rest of the load. -/
theorem Memory.read_loadFrom_inside {m : Memory} (h : m.wf = true) {k : Nat} {image : List Byte}
    (hk : k + image.length ≤ memSize) {j : Nat} {b : Byte} (hj : image[j]? = some b) :
    (Memory.loadFrom m k image).read (k + j) = b.value := by
  induction image generalizing m k j with
  | nil => cases hj
  | cons c rest ih =>
    rw [List.length_cons] at hk
    cases j with
    | zero =>
      obtain rfl : c = b := Option.some.inj hj
      calc (Memory.loadFrom (m.write k c.value) (k + 1) rest).read k
        _ = (m.write k c.value).read k := Memory.read_loadFrom_outside _ (k + 1) rest (.inl k.lt_succ_self)
        _ = c.value := Memory.read_write_same h k c.value
    | succ j =>
      have hwf : (m.write k c.value).wf = true := Memory.write_wf h c.value (by omega)
      calc (Memory.loadFrom (m.write k c.value) (k + 1) rest).read (k + (j + 1))
        _ = (Memory.loadFrom (m.write k c.value) (k + 1) rest).read (k + 1 + j) := by rw [Nat.add_assoc, Nat.add_comm 1]
        _ = b.value := ih hwf (by omega) hj

/-- An image that fits is written from address 0 on. -/
theorem State.loadImage_of_fits (s : State) {image : List Byte} (h : image.length ≤ memSize) :
    s.loadImage image = .ok { s with mem := Memory.loadFrom s.mem 0 image } := if_pos h

/-- An image longer than memory is a load error (60_exceptions.md R188). -/
theorem State.loadImage_of_tooLong (s : State) {image : List Byte} (h : memSize < image.length) :
    s.loadImage image = .error .imageTooLong := if_neg (Nat.not_le.mpr h)

/-- Settles O46: inside the image a cell reads as its byte, from its end on as before. -/
theorem loadPlacesImage : Obligations.LoadPlacesImage := by
  refine fun s image hwf => ⟨fun hfits => ?fits, s.loadImage_of_tooLong⟩
  have hend : 0 + image.length ≤ memSize := (Nat.zero_add _).trans_le hfits
  refine ⟨_, s.loadImage_of_fits hfits, rfl, Memory.loadFrom_wf hwf 0 image hend, fun k b hb => ?placed, fun x hx => ?kept⟩
  case placed =>
    rw [← Nat.zero_add k]
    exact Memory.read_loadFrom_inside hwf hend hb
  case kept => exact Memory.read_loadFrom_outside s.mem 0 image (.inr ((Nat.zero_add _).trans_le hx))

end Sys2Proof.Machine
end
